-- ==== Sys2Proof/Word.lean ====
section
/-! DEFINITION. The widths of every value the block holds or produces (00_scope.md R8). -/

namespace Sys2Proof

/-- A frame byte, a command byte, the count byte or the cursor: 8 bits, unsigned (R8, R9). -/
abbrev Byte := BitVec 8

/-- A point's `index` field: 4 bits (R8). -/
abbrev TrackIndex := BitVec 4

/-- A point's `action` code: 2 bits (R8). -/
abbrev ActionCode := BitVec 2

/-- A point's `x` or `y`: 12 bits, unsigned (R8). -/
abbrev Coord := BitVec 12

end Sys2Proof
end

