-- ==== Sys2Proof/Config.lean ====
section
/-! DEFINITION. The parameter `FRAME_LEN` and the layout constants (00_scope.md R5, R6, R7), and the free value of the frame
bytes after reset (10_state.md R23). The parameter itself is
carried by a machine state (log entry 2), so that one model covers every legal length. -/

namespace Sys2Proof.Config

/-- R5: `FRAME_LEN` is an integer with 1 <= L <= 255. -/
abbrev legalFrameLen (L : Nat) : Prop := 1 ≤ L ∧ L ≤ 255

/-- R5: the reference value of `FRAME_LEN`. -/
def refFrameLen : Nat := 11

/-- R6 `COUNT_OFFSET`: the frame byte that holds the declared touch count. -/
def countOffset : Nat := 0

/-- R6 `RECORD_BASE`: the frame offset of record slot 0. -/
def recordBase : Nat := 1

/-- R6 `RECORD_STRIDE`: bytes from one record slot to the next. -/
def recordStride : Nat := 6

/-- R6 `RECORD_SIZE`: bytes in one record. -/
def recordSize : Nat := 6

/-- R6 `RECORD_READ`: bytes of a record the block reads, offsets 0 to 3. -/
def recordRead : Nat := 4

/-- R7 `MAX_POINTS`: the chip family's declared maximum. Informative: the block does not clamp to it. -/
def maxPoints : Nat := 2

/-- 20_memory.md R26: the device register that frame byte 0 was read from. -/
def frameRegisterBase : Nat := 0x02

/-- 10_state.md R23, 93_implementation_defined.md U1: the byte that a reset leaves at a frame index, "any value". A free
value, with no body: of the reset (a count of resets) and the index (log entry 1). -/
opaque unspecifiedFrameByte : Nat → Nat → Byte

end Sys2Proof.Config
end

