-- ==== Sys2Proof/Syntax.lean ====
section
/-! DEFINITION. The commands (30_encoding.md R43), the events a host issues (R41, 70_reset_and_hazards.md R95), and what
a decoder can answer. -/

namespace Sys2Proof

/-- The three commands, one constructor per row of `opcode_table.json` (R43). -/
inductive Instr where
  /-- NOP, 0x00 (R60). -/
  | nop
  /-- LOAD, 0x01, with its operand bytes `d[0]`, `d[1]`, … in order (R45, R63). -/
  | load (frame : List Byte)
  /-- NEXT, 0x02 (R68). -/
  | next
deriving DecidableEq, Repr

/-- Why a byte sequence is not a command. -/
inductive DecodeError where
  /-- 0x03 to 0xFF: the command byte is reserved (R44). -/
  | reserved (cmd : Byte)
  /-- The bytes end before the command does: none at all, or LOAD with fewer than L operand bytes (R42). -/
  | truncated
deriving DecidableEq, Repr

/-- One step of a run as R95 has it: a reset event or a command. -/
inductive HostStep where
  /-- The reset event; it has no encoding (R58). -/
  | reset
  | command (i : Instr)
deriving DecidableEq, Repr

/-- What arrives at the block, in time order: a reset event, or one byte of a command (R41 (a) and (b), R42). -/
inductive HostItem where
  | reset
  | byte (b : Byte)
deriving DecidableEq, Repr

end Sys2Proof
end

