-- ==== Sys2Proof/Machine/State.lean ====
section
/-! DEFINITION. The block's state as plain data (10_state.md R13 to R15), the outputs and inputs of its interface
(30_encoding.md R41, R55), and the reasons a step can stop. -/

namespace Sys2Proof.Machine

/-- The frame bytes a LOAD has written since reset, by index: addresses strictly rising. An index inside the frame that is
not listed holds the byte the last reset left there, a free value (`State.frameByte` of Ops.lean; log entry 1). -/
abbrev Memory := List Host.Cell

/-- The canonical form of a memory: addresses strictly rising, so each at most once. What an unlisted index reads as is
free, so no entry is ever known to equal it; a LOAD lists every index and a reset none (log entry 1). -/
abbrev Memory.wf (m : Memory) : Prop := (m.map Prod.fst).Pairwise (· < ·)

/-- The names of the action codes (30_encoding.md R54). -/
inductive Action where
  | pressDown
  | liftUp
  | contact
  | noAction
deriving DecidableEq, Repr

/-- One touch point; the `action` field carries the 2-bit code (30_encoding.md R55). -/
structure Point where
  index  : TrackIndex
  action : ActionCode
  x      : Coord
  y      : Coord
deriving DecidableEq, Repr

/-- The response of one command step (30_encoding.md R55). -/
inductive Response where
  /-- NONE: of NOP and LOAD. -/
  | respNone
  /-- END: of NEXT when the sequence is exhausted. -/
  | respEnd
  /-- POINT(p): of NEXT when it is not. -/
  | respPoint (p : Point)
deriving DecidableEq, Repr

/-- Why a step stops with a fault. The block itself has no faults (60_exceptions.md R73, R74): this is the model's own
answer to reads of frame bytes that do not exist, and no state that meets the invariant of Safety.lean reaches it. -/
inductive Fault where
  /-- Raised by a frame read at an index at or above L (00_scope.md R10: "defined only for 0 <= i < L"). Safe. -/
  | frameIndexOutOfRange (index : Nat)
deriving DecidableEq, Repr

/-- Why a step is refused. -/
inductive Refusal where
  /-- Raised by `exec` for an instruction that has no meaning yet; none is left. Safe. -/
  | notModelled (mnemonic : String)
  /-- Raised by fetching a reserved command byte (30_encoding.md R44). Safe. -/
  | reservedCommand (cmd : Byte)
  /-- Raised by fetching a LOAD whose operand the host cut short (30_encoding.md R42; log entry 6). Safe. -/
  | truncatedCommand
  /-- Raised by LOAD given an operand that is not `expected` bytes long, or no count byte; the decoder never gives it
  one of the wrong length (30_encoding.md R45; log entry 7). Safe. -/
  | operandLength (given expected : Nat)
  /-- Raised by `step` when the host has issued nothing more: the run is over (70_reset_and_hazards.md R95; log
  entry 5). Safe. -/
  | hostIdle
deriving DecidableEq, Repr

/-- The machine: the spec's two elements, then the model's own fields for the block's parameter and its interface. -/
structure State where
  /-- R14: the frame store, written whole by LOAD: the bytes written since reset (the rest: `resets`). -/
  frame     : Memory
  /-- R15: points not yet produced. -/
  remaining : Byte
  /-- R5: `FRAME_LEN`, fixed for the life of an instance (the model's own field; log entry 2). -/
  frameLen  : Nat
  /-- R41 (a), (b): what the host has issued and the block has not yet taken, first first (the model's own field; log
  entry 3). -/
  input     : List HostItem
  /-- R41 (c), R55: the response output of the last step; none after a reset step (the model's own field; log
  entry 4). -/
  response  : Option Response
  /-- The number of resets so far: which free bytes a frame that no LOAD has written since reset holds (R23, R87; the
  model's own field; log entry 1). -/
  resets    : Nat
deriving DecidableEq, Repr

/-- A block of frame length `L` right after reset (10_state.md R23). -/
def State.init (L : Nat) : State :=
  { frame := [], remaining := 0, frameLen := L, input := [], response := none, resets := 0 }

/-- The block of the reference length right after reset (00_scope.md R5, 10_state.md R23). -/
def State.reset : State := State.init Config.refFrameLen

/-- What the command input gives the next step. -/
inductive Fetched where
  /-- A reset event, and what the host issued after it. -/
  | reset (rest : List HostItem)
  /-- One whole command, and what the host issued after it. -/
  | command (i : Instr) (rest : List HostItem)
  /-- Nothing the block can run. -/
  | stop (r : Refusal)
deriving DecidableEq, Repr

end Sys2Proof.Machine
end

