-- ==== Sys2Proof/Machine/Operands.lean ====
section
/-! DEFINITION. Where a record stands in the frame, and the fields of a record (40_frame_load.md R61, R62,
30_encoding.md R46 to R54). -/

namespace Sys2Proof.Machine

/-- R61: the frame offset of record slot `s`, `1 + 6*s`. -/
def slotBase (s : Nat) : Nat := Config.recordBase + Config.recordStride * s

/-- R62: the number of slots whose four read bytes lie inside a frame of `L` bytes. -/
def capacity (L : Nat) : Nat := (L + 1) / 6

/-- R46, R53: the count byte of a LOAD operand. -/
def countByte (d : List Byte) : Option Byte := d[Config.countOffset]?

/-- R63: the cursor a LOAD sets, the count byte clamped to the capacity; all 8 bits of the count count (R53). -/
def clampedCount (L : Nat) (count : Byte) : Byte := BitVec.ofNat 8 (min count.toNat (capacity L))

/-- R48: `action = r0[7:6]`. -/
def actionField (r0 : Byte) : ActionCode := r0.extractLsb' 6 2

/-- R49: `x = r0[3:0] ++ r1[7:0]`, the nibble of the lower byte high. -/
def xField (r0 r1 : Byte) : Coord := r0.extractLsb' 0 4 ++ r1

/-- R50: `index = r2[7:4]`. -/
def indexField (r2 : Byte) : TrackIndex := r2.extractLsb' 4 4

/-- R51: `y = r2[3:0] ++ r3[7:0]`, the nibble of the lower byte high. -/
def yField (r2 r3 : Byte) : Coord := r2.extractLsb' 0 4 ++ r3

/-- R66: the point that the four read bytes of a record hold. -/
def pointOfRecord (r0 r1 r2 r3 : Byte) : Point :=
  { index := indexField r2, action := actionField r0, x := xField r0 r1, y := yField r2 r3 }

/-- R54: the name of an action code. -/
def decodeAction (c : ActionCode) : Action :=
  if c = 0 then .pressDown else if c = 1 then .liftUp else if c = 2 then .contact else .noAction

/-- R54: the code of an action name. -/
def actionCode : Action → ActionCode
  | .pressDown => 0
  | .liftUp => 1
  | .contact => 2
  | .noAction => 3

/-- 20_memory.md R26: the device register that the host read frame byte `i` from. -/
def frameRegister (i : Nat) : Nat := Config.frameRegisterBase + i

/-- 20_memory.md R26, 30_encoding.md R45: the frame of `L` bytes that a host reads from device registers holding
`regs`, in the order read. -/
def frameOfRegisters (L : Nat) (regs : Nat → Byte) : List Byte :=
  (List.range L).map fun i => regs (frameRegister i)

end Sys2Proof.Machine
end

