-- ==== Sys2Proof/Machine/Ops.lean ====
section
/-! DEFINITION. The named operations over the frame store, the cursor and the response output (20_memory.md R25 to R34,
10_state.md R14, R15, 30_encoding.md R55). The block has no exceptions (60_exceptions.md R73, R80, R81), so there is no
operation that takes one or returns from one. -/

namespace Sys2Proof.Machine

/-- The byte a memory lists at an address, if it lists one. -/
def Memory.read : Memory → Nat → Option Byte
  | [], _ => none
  | c :: m, a => if c.1 = a then some c.2 else Memory.read m a

/-- The memory that lists `d` at the addresses from `a` on. -/
def Memory.ofBytesAt (a : Nat) : List Byte → Memory
  | [] => []
  | b :: d => (a, b) :: Memory.ofBytesAt (a + 1) d

/-- `frame <- d` (00_scope.md R10): the whole frame store as the bytes `d` in order (R45). -/
def Memory.ofBytes (d : List Byte) : Memory := Memory.ofBytesAt 0 d

/-- A frame store no LOAD has written: every byte the one the last reset left, any value (R23, R87; log entry 1). -/
def Memory.unspecified : Memory := []

/-- The byte at frame index `i` (R14): the one a LOAD wrote since the last reset, else the one that reset left, any
value (R23, R87). -/
def State.frameByte (s : State) (i : Nat) : Byte := (s.frame.read i).getD (Config.unspecifiedFrameByte s.resets i)

/-- `frame[i]` (00_scope.md R10): one byte of the frame store, defined only below L (log entry 8). -/
def State.readFrame (s : State) (i : Nat) : Except Fault Byte :=
  if i < s.frameLen then .ok (s.frameByte i) else .error (.frameIndexOutOfRange i)

/-- `DecodeRecord(b)` (41_point_iteration.md R66): reads `frame[b]` to `frame[b+3]` and nothing else. -/
def State.decodeRecord (s : State) (b : Nat) : Except Fault Point := do
  let r0 ← s.readFrame b
  let r1 ← s.readFrame (b + 1)
  let r2 ← s.readFrame (b + 2)
  let r3 ← s.readFrame (b + 3)
  return pointOfRecord r0 r1 r2 r3

/-- The response output of this step (R55). -/
def State.respond (s : State) (r : Response) : State := { s with response := some r }

/-- `remaining <- v`. -/
def State.setRemaining (s : State) (v : Byte) : State := { s with remaining := v }

/-- What the host has issued after this step's event (70_reset_and_hazards.md R95). -/
def State.withInput (s : State) (rest : List HostItem) : State := { s with input := rest }

/-- R63: the frame store and the cursor of a LOAD, both in one step. -/
def State.latch (s : State) (d : List Byte) (count : Byte) : State :=
  { s with frame := Memory.ofBytes d, remaining := clampedCount s.frameLen count }

/-- The reset event (70_reset_and_hazards.md R87): the cursor 0, `frame <- any L bytes`, no response. -/
def State.resetEvent (s : State) : State :=
  { s with frame := Memory.unspecified, remaining := 0, response := none, resets := s.resets + 1 }

end Sys2Proof.Machine
end

