-- ==== Sys2Proof/Machine/FrameLoad.lean ====
section
/-! DEFINITION. The frame load family: NOP and LOAD (40_frame_load.md). -/

namespace Sys2Proof.Machine

/-- NOP (R60): `respond NONE`; `frame` and `remaining` keep their values. -/
def execNop (s : State) : Host.Outcome State Fault Refusal := .next (s.respond .respNone)

/-- LOAD (R63): latch the frame, clamp the count, `respond NONE`, whatever the state before. An operand that is not L
bytes long is no LOAD of this block (R45; log entry 7); the decoder gives none. -/
def execLoad (d : List Byte) (s : State) : Host.Outcome State Fault Refusal :=
  match countByte d with
  | none => .refused (.operandLength d.length s.frameLen)
  | some count =>
    if d.length = s.frameLen then .next ((s.latch d count).respond .respNone)
    else .refused (.operandLength d.length s.frameLen)

end Sys2Proof.Machine
end

