-- ==== Sys2Proof/Machine/Flags.lean ====
section
/-! DEFINITION. The block has no flags (10_state.md R18). What stands in their place: the terminal condition and the
status output, both functions of the cursor. -/

namespace Sys2Proof.Machine

/-- R15, R18: the terminal state, "not a separate flag; it is `remaining = 0`". -/
def State.exhausted (s : State) : Bool := s.remaining == 0

/-- R20: the read-only status output. -/
def State.status (s : State) : Byte := s.remaining

end Sys2Proof.Machine
end

