-- ==== Sys2Proof/Machine/PointIteration.lean ====
section
/-! DEFINITION. The point iteration family: NEXT (41_point_iteration.md). -/

namespace Sys2Proof.Machine

/-- NEXT (R67, R68): at `remaining = 0` respond END and write nothing; else decrement the cursor and respond with the
record of the slot the decremented cursor names. -/
def execNext (s : State) : Host.Outcome State Fault Refusal :=
  if s.exhausted then .next (s.respond .respEnd)
  else
    let slot := s.remaining - 1
    match s.decodeRecord (slotBase slot.toNat) with
    | .ok p => .next ((s.setRemaining slot).respond (.respPoint p))
    | .error f => .fault f

end Sys2Proof.Machine
end

