-- ==== Sys2Proof/Decode.lean ====
section
/-! DEFINITION. Command decoding, total on any bytes, and the encoder (30_encoding.md R42 to R45, R57). -/

namespace Sys2Proof

/-- R43: the command byte of NOP. -/
def opNop : Byte := 0x00
/-- R43: the command byte of LOAD. -/
def opLoad : Byte := 0x01
/-- R43: the command byte of NEXT. -/
def opNext : Byte := 0x02

/-- R42: a command's length in bytes, told from its first byte alone. -/
def commandLength (L : Nat) (cmd : Byte) : Nat :=
  if cmd = opLoad then 1 + L else 1

/-- R42 to R45: the first command of a byte sequence and the bytes after it, for a block of frame length `L`. -/
def decode (L : Nat) : List Byte → Except DecodeError (Instr × List Byte)
  | [] => .error .truncated
  | cmd :: rest =>
    if cmd = opNop then .ok (.nop, rest)
    else if cmd = opLoad then
      if L ≤ rest.length then .ok (.load (rest.take L), rest.drop L) else .error .truncated
    else if cmd = opNext then .ok (.next, rest)
    else .error (.reserved cmd)

/-- R43, R45: the bytes of a command, its command byte first. -/
def encode : Instr → List Byte
  | .nop => [opNop]
  | .load d => opLoad :: d
  | .next => [opNext]

/-- The first `n` bytes of a command whose bits are `w`, numbered from bit 0 of its first byte. -/
def wordBytes (n w : Nat) : List Byte :=
  (List.range n).map fun k => BitVec.ofNat 8 (w / 2 ^ (8 * k))

/-- The bytes of the one command whose first `nbits` bits are `w` and whose other bits are 0. -/
def wordCommandBytes (L nbits w : Nat) : List Byte :=
  let bytes := wordBytes (1 + L) (w % 2 ^ nbits)
  bytes.take (commandLength L (bytes.headD opNop))

/-- What the decoder reads, at the reference frame length (R5), from the command whose first `nbits` bits are `w` and
whose other bits are 0; none where it refuses. -/
def decodeTableWord (nbits w : Nat) : Option Instr :=
  match decode Config.refFrameLen (wordCommandBytes Config.refFrameLen nbits w) with
  | .ok (i, _) => some i
  | .error _ => none

end Sys2Proof
end

