-- ==== Sys2Proof/Machine/HostPort.lean ====
section
/-! DEFINITION. The block's input: the reset events and command bytes a host issues, and how a step takes one event from
them (30_encoding.md R41, R42, 60_exceptions.md R78, 70_reset_and_hazards.md R95). -/

namespace Sys2Proof.Machine

/-- The command bytes that stand before the next reset event. -/
def leadingBytes : List HostItem → List Byte
  | [] => []
  | .reset :: _ => []
  | .byte b :: rest => b :: leadingBytes rest

/-- The next event of the input: a reset event, or one whole command (R78: never two). -/
def fetch (L : Nat) : List HostItem → Fetched
  | [] => .stop .hostIdle
  | .reset :: rest => .reset rest
  | .byte cmd :: rest =>
    match decode L (cmd :: leadingBytes rest) with
    | .ok (i, _) => .command i ((HostItem.byte cmd :: rest).drop (commandLength L cmd))
    | .error (.reserved c) => .stop (.reservedCommand c)
    | .error .truncated => .stop .truncatedCommand

/-- What a host issues for one step of a run (R58: a reset event has no encoding). -/
def hostItems : HostStep → List HostItem
  | .reset => [.reset]
  | .command i => (encode i).map .byte

/-- What a host issues for the steps of a run, in order (R36, R95). -/
def assemble (steps : List HostStep) : List HostItem := steps.flatMap hostItems

/-- The state in which the host issues the one command whose first `nbits` bits are `w` and whose other bits are 0, and
then whatever it had issued already (log entry 9). -/
def State.issueWord (s : State) (nbits w : Nat) : State :=
  s.withInput ((wordCommandBytes s.frameLen nbits w).map .byte ++ s.input)

end Sys2Proof.Machine
end

