-- ==== Sys2Proof/Machine/Step.lean ====
section
/-! DEFINITION. One step: one reset event or one command (00_scope.md R4, 60_exceptions.md R78). -/

namespace Sys2Proof.Machine

/-- One step of a run (70_reset_and_hazards.md R87, R95): take the next event of the input and apply it. -/
def step (s : State) : Host.Outcome State Fault Refusal :=
  match fetch s.frameLen s.input with
  | .reset rest => .next (s.withInput rest).resetEvent
  | .command i rest => exec i (s.withInput rest)
  | .stop r => .refused r

/-- `s` with the command whose first `nbits` bits are `w` as the next event of its input. -/
def State.withFetchWord (s : State) (nbits w : Nat) : State := s.issueWord nbits w

end Sys2Proof.Machine
end

