-- ==== Sys2Proof/Machine/Assembler.lean ====
section
/-! DEFINITION. The text form of command streams (30_encoding.md R58): one command per line, `NOP`, `NEXT`, `RESET`, and
`LOAD` with exactly L operand bytes separated by commas; a semicolon starts a comment. No pseudo-commands. A text is a
list of characters. What R58 leaves open (blank lines, spaces, the case of hexadecimal digits) is log entry 11. -/

namespace Sys2Proof.Machine

/-- Space, tab or carriage return. -/
def isBlank (c : Char) : Bool := c == ' ' || c == '\t' || c == '\r'

/-- A text without the blanks at its two ends. -/
def trimBlanks (cs : List Char) : List Char :=
  ((cs.dropWhile isBlank).reverse.dropWhile isBlank).reverse

/-- The pieces of a text between the occurrences of `sep`. -/
def splitText (sep : Char) : List Char → List (List Char)
  | [] => [[]]
  | c :: cs =>
    if c = sep then [] :: splitText sep cs
    else
      match splitText sep cs with
      | [] => [[c]]
      | piece :: more => (c :: piece) :: more

/-- The value of a decimal digit. -/
def decimalDigit (c : Char) : Option Nat :=
  if 48 ≤ c.toNat ∧ c.toNat ≤ 57 then some (c.toNat - 48) else none

/-- The value of a hexadecimal digit, in capitals or not. -/
def hexDigit (c : Char) : Option Nat :=
  if 48 ≤ c.toNat ∧ c.toNat ≤ 57 then some (c.toNat - 48)
  else if 65 ≤ c.toNat ∧ c.toNat ≤ 70 then some (c.toNat - 55)
  else if 97 ≤ c.toNat ∧ c.toNat ≤ 102 then some (c.toNat - 87)
  else none

/-- The value of a run of decimal digits read after `n`. -/
def decimalFrom (n : Nat) : List Char → Option Nat
  | [] => some n
  | c :: cs =>
    match decimalDigit c with
    | some k => decimalFrom (n * 10 + k) cs
    | none => none

/-- An operand: `0xHH`, or a decimal from 0 to 255 (R58). -/
def parseByte : List Char → Option Byte
  | ['0', 'x', h, l] =>
    match hexDigit h, hexDigit l with
    | some a, some b => some (BitVec.ofNat 8 (a * 16 + b))
    | _, _ => none
  | [] => none
  | cs =>
    match decimalFrom 0 cs with
    | some n => if n ≤ 255 then some (BitVec.ofNat 8 n) else none
    | none => none

/-- The operands of a LOAD, in order. -/
def parseBytes : List (List Char) → Option (List Byte)
  | [] => some []
  | piece :: more =>
    match parseByte (trimBlanks piece), parseBytes more with
    | some b, some d => some (b :: d)
    | _, _ => none

/-- One line's command from its first word and the text after it. -/
def parseCommand (L : Nat) (word args : List Char) : Option HostStep :=
  if word = ['L', 'O', 'A', 'D'] then
    match parseBytes (splitText ',' args) with
    | some d => if d.length = L then some (.command (.load d)) else none
    | none => none
  else if args ≠ [] then none
  else if word = ['N', 'O', 'P'] then some (.command .nop)
  else if word = ['N', 'E', 'X', 'T'] then some (.command .next)
  else if word = ['R', 'E', 'S', 'E', 'T'] then some .reset
  else none

/-- One line: a comment or nothing gives no step, a command gives one, anything else is no line of R58. -/
def parseLine (L : Nat) (line : List Char) : Option (List HostStep) :=
  let text := trimBlanks (line.takeWhile (· != ';'))
  let word := text.takeWhile (fun c => !isBlank c)
  if text = [] then some []
  else (parseCommand L word (trimBlanks (text.drop word.length))).map ([·])

/-- The steps of the lines of a text. -/
def parseLines (L : Nat) : List (List Char) → Option (List HostStep)
  | [] => some []
  | line :: more =>
    match parseLine L line, parseLines L more with
    | some now, some later => some (now ++ later)
    | _, _ => none

/-- R58: the steps a text stands for, for a block of frame length `L`. -/
def parseProgram (L : Nat) (text : List Char) : Option (List HostStep) := parseLines L (splitText '\n' text)

/-- R58: what a host issues for a text (a reset event has no encoding). -/
def assembleText (L : Nat) (text : List Char) : Option (List HostItem) := (parseProgram L text).map assemble

/-- The capital hexadecimal digit of a number below 16. -/
def hexChar (n : Nat) : Char := if n < 10 then Char.ofNat (48 + n) else Char.ofNat (55 + n)

/-- A byte as `0xHH`. -/
def renderByte (b : Byte) : List Char := ['0', 'x', hexChar (b.toNat / 16), hexChar (b.toNat % 16)]

/-- Operands separated by commas. -/
def renderBytes : List Byte → List Char
  | [] => []
  | [b] => renderByte b
  | b :: c :: d => renderByte b ++ ',' :: ' ' :: renderBytes (c :: d)

/-- One step as a line of R58, without its line break. -/
def renderStep : HostStep → List Char
  | .reset => ['R', 'E', 'S', 'E', 'T']
  | .command .nop => ['N', 'O', 'P']
  | .command (.load d) => 'L' :: 'O' :: 'A' :: 'D' :: ' ' :: renderBytes d
  | .command .next => ['N', 'E', 'X', 'T']

/-- Steps as a text of R58, a line break after each. -/
def renderProgram (steps : List HostStep) : List Char := steps.flatMap fun s => renderStep s ++ ['\n']

end Sys2Proof.Machine
end

