-- ==== Sys2Proof/Machine/Observation.lean ====
section
/-! DEFINITION. What a host observes of a run (70_reset_and_hazards.md R95): the response and the status output of each
step, up to the step the model refuses. -/

namespace Sys2Proof.Machine

/-- What a host sees of one step: the response, none in a reset step (R87), and the status output after it (R20). -/
structure Observation where
  response : Option Response
  status   : Byte
deriving DecidableEq, Repr

/-- How an observed run ends. A refusal is kept here for the rest of the run (30_encoding.md R44); `hostIdle` is the
host's own end of the run (R95). -/
inductive RunEnd where
  /-- The bound on the number of steps was reached in this state. -/
  | paused (s : State)
  | faulted (r : Fault)
  | refused (r : Refusal)
deriving DecidableEq, Repr

/-- The observation of at most `k` steps from `s`, and how it ends; nothing is observed past a step that stops (R95). -/
def observe : Nat → State → List Observation × RunEnd
  | 0, s => ([], .paused s)
  | k + 1, s =>
    match step s with
    | .next t => (⟨t.response, t.status⟩ :: (observe k t).1, (observe k t).2)
    | .fault f => ([], .faulted f)
    | .refused r => ([], .refused r)

/-- R95: the list of responses, one per command step. -/
def responses (os : List Observation) : List Response := os.filterMap (·.response)

end Sys2Proof.Machine
end

