-- ==== Sys2Proof/WellFormed.lean ====
section
/-! DEFINITION. Which commands exist for a block of frame length L (30_encoding.md R42, R45). -/

namespace Sys2Proof

/-- NOP and NEXT take no operand; LOAD takes exactly L operand bytes (R42, R45). -/
def Instr.wellFormed (L : Nat) : Instr → Bool
  | .nop => true
  | .load d => d.length == L
  | .next => true

/-- A reset event is always well formed; a command is when `Instr.wellFormed` says so. -/
def HostStep.wellFormed (L : Nat) : HostStep → Bool
  | .reset => true
  | .command i => i.wellFormed L

end Sys2Proof
end

