-- ==== Sys2Proof/Safety.lean ====
section
/-! DEFINITION. What claims are stated in: the invariant, a loaded frame, a sequence of commands, and the arithmetic
reading of a record. -/

namespace Sys2Proof.Safety

open Sys2Proof.Machine

/-- Every byte of the frame is one a LOAD wrote since the last reset (10_state.md R14, R24). -/
abbrev frameLoaded (s : State) : Prop := ∀ a < s.frameLen, (s.frame.read a).isSome

/-- The invariant: the length is legal (R5), the frame store is canonical and inside its address space (R25), the cursor
is within the capacity (R21), and the frame is as a reset left it or loaded whole (R14), loaded while a sequence is in
progress (R24). -/
abbrev Inv (s : State) : Prop :=
  Config.legalFrameLen s.frameLen ∧ s.frame.wf ∧ (∀ c ∈ s.frame, c.1 < s.frameLen) ∧
    s.remaining.toNat ≤ capacity s.frameLen ∧ (s.frame = Memory.unspecified ∨ frameLoaded s) ∧
    (s.remaining ≠ 0 → frameLoaded s)

/-- `s` reaches `t` in some number of steps, none of which stops. -/
inductive Reaches : State → State → Prop where
  | refl (s : State) : Reaches s s
  | tail {s t u : State} : Reaches s t → step t = .next u → Reaches s u

/-- Only NEXT and NOP: what the host issues in the sequence law (41_point_iteration.md R70). -/
abbrev IterationOnly (cs : List Instr) : Prop := ∀ c ∈ cs, c = Instr.nop ∨ c = Instr.next

/-- The fields of a record by division and remainder, as 30_encoding.md R48 to R51 give their values. -/
def recordPoint (r0 r1 r2 r3 : Byte) : Point :=
  { index := BitVec.ofNat 4 (r2.toNat / 16),
    action := BitVec.ofNat 2 (r0.toNat / 64),
    x := BitVec.ofNat 12 (r0.toNat % 16 * 256 + r1.toNat),
    y := BitVec.ofNat 12 (r2.toNat % 16 * 256 + r3.toNat) }

/-- The point in slot `j` of the frame bytes `d`: its record stands at offset `1 + 6*j` (40_frame_load.md R61). -/
def slotPoint (d : List Byte) (j : Nat) : Point :=
  recordPoint (d.getD (1 + 6 * j) 0) (d.getD (2 + 6 * j) 0) (d.getD (3 + 6 * j) 0) (d.getD (4 + 6 * j) 0)

/-- The number of points a LOAD of `d` starts a sequence of (40_frame_load.md R63). -/
def sequenceLength (d : List Byte) : Nat := min (d.headD 0).toNat ((d.length + 1) / 6)

/-- Two frames of one length that differ only in bits the block ignores (30_encoding.md R52): they agree on the count
byte and, in every slot the sequence decodes, on `r0` but for bits [5:4] and on `r1`, `r2` and `r3`. -/
abbrev SameDecodedBits (d e : List Byte) : Prop :=
  d.length = e.length ∧ d.headD 0 = e.headD 0 ∧
    ∀ j < sequenceLength d,
      (d.getD (1 + 6 * j) 0) &&& 0xCF = (e.getD (1 + 6 * j) 0) &&& 0xCF ∧
      d.getD (2 + 6 * j) 0 = e.getD (2 + 6 * j) 0 ∧ d.getD (3 + 6 * j) 0 = e.getD (3 + 6 * j) 0 ∧
      d.getD (4 + 6 * j) 0 = e.getD (4 + 6 * j) 0

/-- A state that the host issues the steps `hs` to, and then the items `rest`. -/
def issue (s : State) (hs : List HostStep) (rest : List HostItem) : State :=
  s.withInput (assemble hs ++ rest)

end Sys2Proof.Safety
end

