-- ==== Sys2Proof/Certificates/Slice0/Obligations.lean ====
section
/-! DEFINITION. The statements for the provers. Where a rule of the spec records one of its own decisions (D1 to D22 of
92_eei_decisions.md), the docstring names it; log entry 10 lists those a chip could differ on. -/

open Sys2Proof Sys2Proof.Machine Sys2Proof.Safety

/-! ## Commands and their encoding -/

/-- 30_encoding.md R44 (decision D3): a reserved command byte is refused, and nothing is observed from there on. -/
def Obligations.ReservedCommandByteIsRefused : Prop :=
  ∀ (s : State) (cmd : Byte) (rest : List HostItem), 3 ≤ cmd.toNat → s.input = .byte cmd :: rest →
    step s = .refused (.reservedCommand cmd) ∧
      ∀ k, observe (k + 1) s = ([], .refused (.reservedCommand cmd))

/-- 30_encoding.md R43 and 95_test_vectors.md P1 (decision D2): the three commands' bytes, written out. A sanity check
on a few words. -/
def Obligations.CommandBytesDecodeAsTheTableSays : Prop :=
  decode 11 [0x00] = .ok (.nop, []) ∧ decode 11 [0x02] = .ok (.next, []) ∧
    decode 11 [0x01, 0x02, 0x01, 0x23, 0x04, 0x56, 0x00, 0x00, 0x87, 0xFF, 0x10, 0xA0, 0x02] =
      .ok (.load [0x02, 0x01, 0x23, 0x04, 0x56, 0x00, 0x00, 0x87, 0xFF, 0x10, 0xA0], [0x02]) ∧
    decode 11 [0x03] = .error (.reserved 0x03)

/-- Decoding an encoded command of any legal length gives it back with every operand byte, and the bytes after it. -/
def Obligations.DecodeOfEncodeIsTheCommand : Prop :=
  ∀ (L : Nat) (i : Instr) (rest : List Byte), i.wellFormed L = true → decode L (encode i ++ rest) = .ok (i, rest)

/-- Every byte sequence the decoder accepts is the encoding of the well-formed command it answers, and what follows. -/
def Obligations.EncodeOfDecodeIsTheBytes : Prop :=
  ∀ (L : Nat) (bs : List Byte) (i : Instr) (rest : List Byte), decode L bs = .ok (i, rest) →
    bs = encode i ++ rest ∧ i.wellFormed L = true

/-- 30_encoding.md R42 (decision D2): a command's length follows from its first byte alone. -/
def Obligations.CommandLengthFollowsFromFirstByte : Prop :=
  ∀ (L : Nat) (cmd : Byte) (bs : List Byte) (i : Instr) (rest : List Byte), decode L (cmd :: bs) = .ok (i, rest) →
    bs.length + 1 = (if cmd = 0x01 then 1 + L else 1) + rest.length ∧
      (cmd = 0x01 → i = .load (bs.take L)) ∧ (cmd ≠ 0x01 → i = .nop ∨ i = .next)

/-- When the next bytes of the input are those of a well-formed command, a step is that command's effect, with the input
moved past exactly those bytes. -/
def Obligations.StepRunsTheIssuedCommand : Prop :=
  ∀ (s : State) (i : Instr) (rest : List HostItem), i.wellFormed s.frameLen = true →
    s.input = (encode i).map .byte ++ rest → step s = exec i { s with input := rest }

/-- A step that completes took one reset event or one whole well-formed command from the input, and nothing more
(the model's form of 60_exceptions.md R78, log entry 3). -/
def Obligations.StepTakesExactlyOneEvent : Prop :=
  ∀ s t : State, step s = .next t →
    (∃ rest, s.input = .reset :: rest ∧
      t = { s with frame := Memory.unspecified, remaining := 0, input := rest, response := none,
                   resets := s.resets + 1 }) ∨
    ∃ (i : Instr) (rest : List HostItem), i.wellFormed s.frameLen = true ∧
      s.input = (encode i).map .byte ++ rest ∧ exec i { s with input := rest } = .next t

/-- The model's choice (log entry 6): a LOAD whose operand the host cuts short, by issuing no more or by a reset, is
refused. -/
def Obligations.LoadCutShortIsRefused : Prop :=
  ∀ (s : State) (d : List Byte) (rest : List HostItem), d.length < s.frameLen →
    (s.input = .byte 0x01 :: d.map .byte ∨ s.input = .byte 0x01 :: d.map .byte ++ .reset :: rest) →
      step s = .refused .truncatedCommand

/-- The model's choice (log entry 5): when the host has issued nothing more, no step is taken and the run is over. -/
def Obligations.IdleHostEndsTheRun : Prop :=
  ∀ s : State, s.input = [] → step s = .refused .hostIdle ∧ ∀ k, observe (k + 1) s = ([], .refused .hostIdle)

/-! ## Reset and the invariant -/

/-- 70_reset_and_hazards.md section 1 (decision D11): a reset event is a step of its own that sets the cursor to 0,
leaves all L frame bytes at any value, and gives no response; it may come at any step. The free value that "any value"
is, fresh at each reset, is log entry 1. -/
def Obligations.ResetEventAbandonsTheSequence : Prop :=
  ∀ (s : State) (rest : List HostItem), s.input = .reset :: rest →
    ∃ t, step s = .next t ∧ t.remaining = 0 ∧ t.response = none ∧ t.input = rest ∧ t.frameLen = s.frameLen ∧
      t.resets = s.resets + 1 ∧
      ∀ a < s.frameLen, t.readFrame a = .ok (Config.unspecifiedFrameByte t.resets a)

/-- 10_state.md section 3 (decision D11): the state after reset has the cursor 0 on the status output and L frame bytes
of any value (the free value of log entry 1), for every frame length; the reference length is 11 (00_scope.md
section 3). -/
def Obligations.ResetStateHasCursorZero : Prop :=
  State.reset = State.init 11 ∧ ∀ L : Nat, (State.init L).remaining = 0 ∧ (State.init L).status = 0 ∧
    (State.init L).response = none ∧
    ∀ a < L, (State.init L).readFrame a = .ok (Config.unspecifiedFrameByte (State.init L).resets a)

/-- 10_state.md section 1 and 20_memory.md section 1: in every state, after reset as after a LOAD, the frame has a byte at
every index below L and none at any other (the stop there is log entry 8). -/
def Obligations.FrameHoldsExactlyLBytes : Prop :=
  ∀ (s : State) (a : Nat),
    (a < s.frameLen → ∃ b : Byte, s.readFrame a = .ok b) ∧
      (s.frameLen ≤ a → s.readFrame a = .error (.frameIndexOutOfRange a))

/-- The invariant holds after reset, for every legal frame length. -/
def Obligations.InvariantHoldsAtReset : Prop :=
  Inv State.reset ∧ ∀ L : Nat, Config.legalFrameLen L → Inv (State.init L)

/-- Every step keeps the invariant: the cursor within the capacity, the frame store canonical and inside its address
space, as a reset left it or loaded whole, and a sequence in progress only over a loaded frame (10_state.md section 2 and section 4). -/
def Obligations.StepKeepsTheInvariant : Prop :=
  ∀ s t : State, Inv s → step s = .next t → Inv t

/-- 60_exceptions.md R74 (and the reason for R73): no command faults, for any operand, in any state that meets the
invariant: it completes with a response. -/
def Obligations.EveryCommandCompletes : Prop :=
  ∀ (s : State) (i : Instr), Inv s → i.wellFormed s.frameLen = true →
    ∃ t r, exec i s = .next t ∧ t.response = some r ∧ Inv t

/-- From a state that meets the invariant no run ever faults, and a step that does not complete is refused for a
reserved byte (60_exceptions.md section 1), or by one of two stops that are the model's choices and not the spec's:
`hostIdle`, when the host issues nothing more (log entry 5), and `truncatedCommand`, for a command cut short (log
entry 6). -/
def Obligations.ReachableStatesStopOnlyAtTheHost : Prop :=
  ∀ s t : State, Inv s → Reaches s t →
    (∃ u, step t = .next u) ∨ step t = .refused .hostIdle ∨ step t = .refused .truncatedCommand ∨
      ∃ cmd : Byte, 3 ≤ cmd.toNat ∧ step t = .refused (.reservedCommand cmd)

/-- 10_state.md section 1: `FRAME_LEN` is fixed for the life of an instance. The field that carries it is the model's
(log entry 2). -/
def Obligations.FrameLengthIsFixedForTheRun : Prop :=
  ∀ s t : State, Reaches s t → t.frameLen = s.frameLen

/-! ## NOP -/

/-- 40_frame_load.md R60 (decision D2): NOP answers NONE and changes nothing else, in every state; a following NEXT
behaves as if the NOP had not been issued. -/
def Obligations.NopOnlyAnswersNone : Prop :=
  encode .nop = [0x00] ∧ ∀ s : State, exec .nop s = .next { s with response := some .respNone } ∧
    exec .next { s with response := some .respNone } = exec .next s

/-! ## LOAD -/

/-- 40_frame_load.md R63 (decisions D5, D7, D13): whatever the state before, a LOAD of L bytes stores operand byte `i` in
frame byte `i` for all L of them, sets the cursor to the count byte clamped to the capacity (at most 42), and answers
NONE. -/
def Obligations.LoadLatchesTheFrameAndClampsTheCount : Prop :=
  ∀ (s : State) (d : List Byte) (count : Byte) (more : List Byte), Config.legalFrameLen s.frameLen →
    d = count :: more → d.length = s.frameLen →
    encode (.load d) = 0x01 :: d ∧ ∃ t, exec (.load d) s = .next t ∧ t.response = some .respNone ∧
      t.remaining.toNat = min count.toNat ((s.frameLen + 1) / 6) ∧ t.remaining.toNat ≤ 42 ∧
      (∀ (i : Nat) (h : i < d.length), t.readFrame i = .ok d[i]) ∧
      (∀ i, s.frameLen ≤ i → t.readFrame i = s.readFrame i) ∧
      t.frameLen = s.frameLen ∧ t.input = s.input ∧ t.resets = s.resets

/-- 40_frame_load.md section 3: a LOAD keeps no memory of the frame, the cursor or the response before it; two states of
one length with the same input left (and the same count of resets, the model's own field, log entry 1) become the same
state. -/
def Obligations.LoadForgetsTheStateBefore : Prop :=
  ∀ (s u : State) (d : List Byte), s.frameLen = u.frameLen → s.input = u.input → s.resets = u.resets →
    exec (.load d) s = exec (.load d) u

/-- 20_memory.md R26: when a host loads the L bytes it read from device register 0x02 on, frame byte `i` holds device
register `0x02 + i`; slot 0 stands at registers 0x03 to 0x08 and slot 1 at 0x09 to 0x0E. -/
def Obligations.LoadedFrameHoldsTheDeviceRegisters : Prop :=
  (∀ (s : State) (regs : Nat → Byte), Config.legalFrameLen s.frameLen →
    ∃ t, exec (.load (frameOfRegisters s.frameLen regs)) s = .next t ∧
      ∀ i < s.frameLen, t.readFrame i = .ok (regs (0x02 + i))) ∧
    frameRegister 0 = 0x02 ∧
    ∀ k < 6, frameRegister (slotBase 0 + k) = 0x03 + k ∧ frameRegister (slotBase 1 + k) = 0x09 + k

/-- The model's choice (log entry 7): LOAD given an operand that is not L bytes long is refused. -/
def Obligations.LoadOfAnotherLengthIsRefused : Prop :=
  ∀ (s : State) (d : List Byte), d.length ≠ s.frameLen →
    exec (.load d) s = .refused (.operandLength d.length s.frameLen)

/-! ## NEXT -/

/-- 41_point_iteration.md R67 and R68: at the end NEXT answers END and changes nothing else; else, wherever the record of
slot `n` lies in the frame, it decrements the cursor to `n` and answers the point of that record, which stands at offset
`1 + 6*n`. -/
def Obligations.NextAnswersThePointOrEnd : Prop :=
  encode .next = [0x02] ∧ ∀ s : State,
    (s.remaining = 0 → exec .next s = .next { s with response := some .respEnd }) ∧
    ∀ n : Nat, s.remaining.toNat = n + 1 → 1 + 6 * n + 3 < s.frameLen →
      ∃ r0 r1 r2 r3 : Byte,
        s.readFrame (1 + 6 * n) = .ok r0 ∧ s.readFrame (1 + 6 * n + 1) = .ok r1 ∧
        s.readFrame (1 + 6 * n + 2) = .ok r2 ∧ s.readFrame (1 + 6 * n + 3) = .ok r3 ∧
        exec .next s = .next { s with
          remaining := BitVec.ofNat 8 n,
          response := some (.respPoint (recordPoint r0 r1 r2 r3)) }

/-- When NEXT stops (the model's answer to reads of frame bytes that do not exist, log entry 8): exactly when a sequence
is in progress and the record of its slot reaches outside the frame. -/
def Obligations.NextFaultsExactlyOutsideTheFrame : Prop :=
  ∀ (s : State) (n : Nat), s.remaining.toNat = n + 1 →
    ((∃ f, exec .next s = .fault f) ↔ s.frameLen ≤ 1 + 6 * n + 3)

/-- 20_memory.md R33: only LOAD changes a byte of the frame, and NEXT changes only the cursor, by one when it is not 0;
the frame of NOP and NEXT over every part of the state. -/
def Obligations.NopAndNextLeaveTheFrame : Prop :=
  ∀ s t : State,
    (exec .nop s = .next t → (∀ a, t.readFrame a = s.readFrame a) ∧ t.frame = s.frame ∧ t.remaining = s.remaining ∧
      t.frameLen = s.frameLen ∧ t.input = s.input ∧ t.resets = s.resets) ∧
    (exec .next s = .next t → (∀ a, t.readFrame a = s.readFrame a) ∧ t.frame = s.frame ∧
      t.remaining.toNat = s.remaining.toNat - 1 ∧ t.frameLen = s.frameLen ∧ t.input = s.input ∧ t.resets = s.resets)

/-- 20_memory.md R30: NEXT depends on no frame byte but the four of the slot it decodes, and on none at the end; LOAD
writes all L bytes. -/
def Obligations.NextReadsExactlyOneRecord : Prop :=
  (∀ (s : State) (m : Memory) (z : Nat),
    (∀ n, s.remaining.toNat = n + 1 → ∀ k < 4,
      State.readFrame { s with frame := m, resets := z } (1 + 6 * n + k) = s.readFrame (1 + 6 * n + k)) →
      (∀ t, exec .next s = .next t →
        exec .next { s with frame := m, resets := z } = .next { t with frame := m, resets := z }) ∧
      ∀ f, exec .next s = .fault f → exec .next { s with frame := m, resets := z } = .fault f) ∧
  ∀ (s t : State) (d : List Byte), exec (.load d) s = .next t →
    d.length = s.frameLen ∧ ∀ (a : Nat) (h : a < d.length), t.readFrame a = .ok d[a]

/-- 41_point_iteration.md R66: every four-byte record inside the frame decodes, and a record packed from any index,
action, x and y decodes to them, whatever its ignored bits `g` and its last two bytes hold; the decode depends on the four
bytes alone. -/
def Obligations.RecordDecodeIsTotalAndUndoesPacking : Prop :=
  (∀ (s : State) (b : Nat), b + 3 < s.frameLen → ∃ r0 r1 r2 r3 : Byte,
    s.readFrame b = .ok r0 ∧ s.readFrame (b + 1) = .ok r1 ∧ s.readFrame (b + 2) = .ok r2 ∧
    s.readFrame (b + 3) = .ok r3 ∧
      s.decodeRecord b = .ok { index := r2.extractLsb' 4 4, action := r0.extractLsb' 6 2,
                               x := r0.extractLsb' 0 4 ++ r1, y := r2.extractLsb' 0 4 ++ r3 }) ∧
  (∀ (s : State) (b : Nat) (p : Point) (g : BitVec 2),
    s.readFrame b = .ok (BitVec.ofNat 8 (p.action.toNat * 64 + g.toNat * 16 + p.x.toNat / 256)) →
    s.readFrame (b + 1) = .ok (BitVec.ofNat 8 (p.x.toNat % 256)) →
    s.readFrame (b + 2) = .ok (BitVec.ofNat 8 (p.index.toNat * 16 + p.y.toNat / 256)) →
    s.readFrame (b + 3) = .ok (BitVec.ofNat 8 (p.y.toNat % 256)) →
      s.decodeRecord b = .ok p) ∧
  ∀ (s t : State) (b : Nat),
    (∀ k < 4, t.readFrame (b + k) = s.readFrame (b + k)) → t.decodeRecord b = s.decodeRecord b

/-- 30_encoding.md section 4 (the spec's own reading of the enum's order, decision D8, log entry 10): the four names, and
that code and name carry the same information. -/
def Obligations.ActionCodesAndNamesAgree : Prop :=
  decodeAction 0 = .pressDown ∧ decodeAction 1 = .liftUp ∧ decodeAction 2 = .contact ∧ decodeAction 3 = .noAction ∧
    (∀ c : ActionCode, actionCode (decodeAction c) = c) ∧ ∀ a : Action, decodeAction (actionCode a) = a

/-- 40_frame_load.md R62 (decision D5): the capacity counts the slots whose four read bytes lie inside the frame; it is
`k` from `6k - 1` to `6k + 4`. -/
def Obligations.CapacityCountsTheSlotsThatFit : Prop :=
  (∀ L j : Nat, j < capacity L ↔ slotBase j + 3 < L) ∧
    (∀ L k : Nat, 6 * k ≤ L + 1 → L ≤ 6 * k + 4 → capacity L = k) ∧ capacity 11 = 2 ∧ capacity 255 = 42

/-- 20_memory.md section 2, the bound on frame reads: under the invariant the record NEXT decodes lies inside the frame. -/
def Obligations.CursorKeepsReadsInsideTheFrame : Prop :=
  ∀ (s : State) (n : Nat), Inv s → s.remaining.toNat = n + 1 →
    slotBase n + 3 < s.frameLen ∧ ∃ p, s.decodeRecord (slotBase n) = .ok p

/-- 30_encoding.md R55 (decision D15): NOP and LOAD answer NONE, NEXT answers END at the end and a point otherwise, in
every state and whatever stood on the response output before. -/
def Obligations.EachCommandAnswersAsTheTableSays : Prop :=
  ∀ s t : State,
    (exec .nop s = .next t → t.response = some .respNone) ∧
    (∀ d, exec (.load d) s = .next t → t.response = some .respNone) ∧
    (exec .next s = .next t → s.remaining = 0 → t.response = some .respEnd) ∧
    (exec .next s = .next t → s.remaining ≠ 0 → ∃ p, t.response = some (.respPoint p))

/-! ## Runs -/

/-- 70_reset_and_hazards.md section 5 and 10_state.md section 2: what is observed of a step is its response and, on the
status output, the cursor after it. -/
def Obligations.ObservationIsResponseAndCursor : Prop :=
  ∀ (k : Nat) (s t : State), step s = .next t →
    observe (k + 1) s = (⟨t.response, t.remaining⟩ :: (observe k t).1, (observe k t).2)

/-- 20_memory.md section 5: commands take effect in the order issued, each complete before the next. A run over the steps
`hs` that pauses in `t` has taken exactly what was issued for them, and goes on as a run from `t`. -/
def Obligations.RunsComposeInIssueOrder : Prop :=
  ∀ (s t : State) (hs : List HostStep) (rest : List HostItem) (os : List Observation) (k : Nat),
    (∀ h ∈ hs, h.wellFormed s.frameLen = true) → observe hs.length (issue s hs rest) = (os, .paused t) →
      t.input = rest ∧ os.length = hs.length ∧
        observe (hs.length + k) (issue s hs rest) = (os ++ (observe k t).1, (observe k t).2)

/-- 41_point_iteration.md section 4, the absorbing end: with the cursor at 0, every NEXT answers END, every NOP NONE, the
status output shows 0, and neither the frame nor the cursor changes, however many are issued. -/
def Obligations.EndIsAbsorbing : Prop :=
  ∀ (s : State) (cs : List Instr) (rest : List HostItem), s.remaining = 0 → IterationOnly cs →
    ∃ t, observe cs.length (issue s (cs.map .command) rest) =
        (cs.map (fun c => ⟨some (if c = Instr.next then Response.respEnd else Response.respNone), 0⟩), .paused t) ∧
      t.frame = s.frame ∧ t.remaining = 0 ∧ t.frameLen = s.frameLen ∧ t.input = rest ∧ t.resets = s.resets

/-- 41_point_iteration.md R71, with the whole sequence law of its section 4: after a LOAD of `d`, in any state before it,
the NEXTs answer the points of slots `n - 1` down to 0 in that order and END ever after, NOPs between them answering NONE
and changing nothing; `n` is the count byte clamped to the capacity. -/
def Obligations.SequenceRunsFromTheHighestSlotDown : Prop :=
  ∀ (s : State) (d : List Byte) (cs : List Instr) (rest : List HostItem),
    Config.legalFrameLen s.frameLen → d.length = s.frameLen → IterationOnly cs →
    let os := (observe (1 + cs.length) (issue s (.command (.load d) :: cs.map .command) rest)).1
    os.length = 1 + cs.length ∧
      (responses os).filter (· ≠ .respNone) =
        (((List.range (sequenceLength d)).reverse.map fun j => Response.respPoint (slotPoint d j)) ++
          List.replicate (cs.count Instr.next) Response.respEnd).take (cs.count Instr.next) ∧
      (responses os).count Response.respNone = 1 + cs.count Instr.nop

/-- 30_encoding.md R52 (decision D20): two frames that differ only in ignored bits give the same observations, whatever
the host issues after the LOAD of either. -/
def Obligations.IgnoredBitsAreNeverObserved : Prop :=
  ∀ (s : State) (d e : List Byte) (rest : List HostItem) (k : Nat),
    d.length = s.frameLen → SameDecodedBits d e →
      (observe k (issue s [.command (.load d)] rest)).1 = (observe k (issue s [.command (.load e)] rest)).1

/-- 10_state.md section 4: no output depends on the frame while the cursor is 0, so the bytes a reset leaves are never
observed, whatever the host issues: another frame store, and other free bytes (another count of resets, log entry 1),
give the same observations. -/
def Obligations.UnspecifiedFrameIsNeverObserved : Prop :=
  ∀ (s : State) (m : Memory) (z k : Nat), s.remaining = 0 →
    (observe k { s with frame := m, resets := z }).1 = (observe k s).1

/-- 70_reset_and_hazards.md section 1: after a reset the block behaves exactly as after a LOAD whose count byte is 0,
whatever the host issues next. -/
def Obligations.ResetBehavesAsALoadOfCountZero : Prop :=
  ∀ (s : State) (d : List Byte) (rest : List HostItem) (k : Nat),
    Config.legalFrameLen s.frameLen → d.length = s.frameLen → d.headD 0 = 0 →
      (observe (k + 1) (issue s [.reset] rest)).1.tail =
        (observe (k + 1) (issue s [.command (.load d)] rest)).1.tail

/-- 40_frame_load.md section 2: for every frame length from 11 to 16 the responses depend only on the first eleven frame
bytes: two blocks of such lengths, loaded with frames that agree on those, answer alike. -/
def Obligations.LengthsElevenToSixteenAnswerAlike : Prop :=
  ∀ (s u : State) (d e : List Byte) (cs : List Instr),
    11 ≤ s.frameLen → s.frameLen ≤ 16 → 11 ≤ u.frameLen → u.frameLen ≤ 16 →
    d.length = s.frameLen → e.length = u.frameLen → d.take 11 = e.take 11 → IterationOnly cs →
      (observe (1 + cs.length) (issue s (.command (.load d) :: cs.map .command) [])).1 =
        (observe (1 + cs.length) (issue u (.command (.load e) :: cs.map .command) [])).1

/-! ## The text form -/

/-- 30_encoding.md section 7, its example (decision D19): the LOAD of eleven zeros is these twelve bytes. -/
def Obligations.TextExampleAssembles : Prop :=
  assembleText 11 (renderProgram [.command (.load (List.replicate 11 0))]) =
      some ((0x01 :: List.replicate 11 0x00).map .byte) ∧
    assembleText 11 ['R', 'E', 'S', 'E', 'T', '\n', 'N', 'E', 'X', 'T', ' ', ';', ' ', 'x', '\n', 'N', 'O', 'P'] =
      some [.reset, .byte 0x02, .byte 0x00]

/-- A text printed from well-formed steps reads back as those steps, for every legal frame length. -/
def Obligations.ParseOfRenderIsTheProgram : Prop :=
  ∀ (L : Nat) (hs : List HostStep), Config.legalFrameLen L → (∀ h ∈ hs, h.wellFormed L = true) →
    parseProgram L (renderProgram hs) = some hs
end

