-- ==== Sys2Proof/Laws/Assembler.lean ====
section
/-! SUPPORT. The text form's pieces: splitting, trimming, and the printed bytes (30_encoding.md R58). -/

namespace Sys2Proof.Machine

theorem splitText_append (sep : Char) (a b : List Char) (h : ∀ c ∈ a, c ≠ sep) :
    splitText sep (a ++ sep :: b) = a :: splitText sep b := by
  induction a with
  | nil => simp [splitText]
  | cons c a ih =>
    simp only [List.cons_append, splitText, if_neg (h c (by simp)), ih (fun x hx => h x (by simp [hx]))]

theorem splitText_of_none (sep : Char) (a : List Char) (h : ∀ c ∈ a, c ≠ sep) : splitText sep a = [a] := by
  induction a with
  | nil => rfl
  | cons c a ih =>
    simp only [splitText, if_neg (h c (by simp)), ih (fun x hx => h x (by simp [hx]))]

theorem trimBlanks_blank {c : Char} (hc : isBlank c = true) (a : List Char) :
    trimBlanks (c :: a) = trimBlanks a := by
  simp [trimBlanks, hc]

/-- A text with no blank at either end is its own trim. -/
theorem trimBlanks_of_ends {x y : Char} (m : List Char) (hx : isBlank x = false) (hy : isBlank y = false) :
    trimBlanks (x :: m ++ [y]) = x :: m ++ [y] := by
  simp [trimBlanks, hx, hy]

theorem hexDigit_hexChar : ∀ n < 16, hexDigit (hexChar n) = some n := by decide

theorem hexChar_not_separator :
    ∀ n < 16, isBlank (hexChar n) = false ∧ hexChar n ≠ ',' ∧ hexChar n ≠ ';' ∧ hexChar n ≠ '\n' := by decide

theorem parseByte_hex (h l : Char) : parseByte ['0', 'x', h, l] =
    match hexDigit h, hexDigit l with
    | some a, some b => some (BitVec.ofNat 8 (a * 16 + b))
    | _, _ => none := rfl

/-- A printed byte reads back. -/
theorem parseByte_renderByte (b : Byte) : parseByte (renderByte b) = some b := by
  have := b.isLt
  rw [renderByte, parseByte_hex, hexDigit_hexChar _ (by omega), hexDigit_hexChar _ (by omega)]
  simp only [Option.some.injEq]
  apply BitVec.eq_of_toNat_eq
  simp
  omega

end Sys2Proof.Machine
end

