-- ==== Sys2Proof/Laws/Decode.lean ====
section
/-! SUPPORT. The decoder on each command byte, and the encoder's words. -/

namespace Sys2Proof

@[simp] theorem decode_nil (L : Nat) : decode L [] = .error .truncated := rfl

@[simp] theorem decode_opNop (L : Nat) (bs : List Byte) : decode L (opNop :: bs) = .ok (.nop, bs) := rfl

@[simp] theorem decode_opNext (L : Nat) (bs : List Byte) : decode L (opNext :: bs) = .ok (.next, bs) := rfl

theorem decode_opLoad (L : Nat) (bs : List Byte) :
    decode L (opLoad :: bs) = if L ≤ bs.length then .ok (.load (bs.take L), bs.drop L) else .error .truncated := rfl

/-- The bytes above 0x02 are the reserved ones (30_encoding.md R44, R57). -/
theorem decode_reserved (L : Nat) {cmd : Byte} (h : 3 ≤ cmd.toNat) (bs : List Byte) :
    decode L (cmd :: bs) = .error (.reserved cmd) := by
  have h0 : cmd ≠ opNop := by rintro rfl; simp [opNop] at h
  have h1 : cmd ≠ opLoad := by rintro rfl; simp [opLoad] at h
  have h2 : cmd ≠ opNext := by rintro rfl; simp [opNext] at h
  simp [decode, h0, h1, h2]

/-- Every byte is one of the three command bytes or reserved (30_encoding.md R57). -/
theorem commandByte_cases (cmd : Byte) : cmd = opNop ∨ cmd = opLoad ∨ cmd = opNext ∨ 3 ≤ cmd.toNat := by
  have h := cmd.isLt
  by_cases h3 : 3 ≤ cmd.toNat
  · exact .inr (.inr (.inr h3))
  · rcases (by omega : cmd.toNat = 0 ∨ cmd.toNat = 1 ∨ cmd.toNat = 2) with h | h | h
    · exact .inl (BitVec.eq_of_toNat_eq h)
    · exact .inr (.inl (BitVec.eq_of_toNat_eq h))
    · exact .inr (.inr (.inl (BitVec.eq_of_toNat_eq h)))

@[simp] theorem encode_nop : encode .nop = [opNop] := rfl
@[simp] theorem encode_load (d : List Byte) : encode (.load d) = opLoad :: d := rfl
@[simp] theorem encode_next : encode .next = [opNext] := rfl

@[simp] theorem commandLength_opNop (L : Nat) : commandLength L opNop = 1 := rfl
@[simp] theorem commandLength_opLoad (L : Nat) : commandLength L opLoad = 1 + L := rfl
@[simp] theorem commandLength_opNext (L : Nat) : commandLength L opNext = 1 := rfl

@[simp] theorem wellFormed_nop (L : Nat) : Instr.nop.wellFormed L = true := rfl
@[simp] theorem wellFormed_next (L : Nat) : Instr.next.wellFormed L = true := rfl
@[simp] theorem wellFormed_load (L : Nat) (d : List Byte) : (Instr.load d).wellFormed L = true ↔ d.length = L := by
  simp [Instr.wellFormed]

end Sys2Proof
end

