-- ==== Sys2Proof/Laws/Memory.lean ====
section
/-! SUPPORT. What the frame store's operations leave: which byte is read where, and that every memory they make is
canonical. -/

namespace Sys2Proof.Machine

@[simp] theorem Memory.read_nil (a : Nat) : Memory.read [] a = none := rfl

@[simp] theorem Memory.read_unspecified (a : Nat) : Memory.unspecified.read a = none := rfl

theorem Memory.unspecified_wf : Memory.unspecified.wf := List.Pairwise.nil

theorem Memory.read_ofBytesAt (d : List Byte) (b a : Nat) :
    (Memory.ofBytesAt b d).read a = if b ≤ a then d[a - b]? else none := by
  induction d generalizing b with
  | nil => simp [Memory.ofBytesAt]
  | cons x d ih =>
    simp only [Memory.ofBytesAt, Memory.read, ih]
    rcases Nat.lt_trichotomy b a with h | h | h
    · obtain ⟨k, rfl⟩ : ∃ k, a = b + 1 + k := ⟨a - b - 1, by omega⟩
      have : b + 1 + k - b = k + 1 := by omega
      rw [if_neg (by omega), if_pos (by omega), if_pos (by omega), this]
      simp
    · subst h; simp
    · rw [if_neg (by omega), if_neg (by omega), if_neg (by omega)]

/-- A LOAD's frame store reads operand byte `a` at index `a` (30_encoding.md R45). -/
@[simp] theorem Memory.read_ofBytes (d : List Byte) (a : Nat) : (Memory.ofBytes d).read a = d[a]? := by
  simp [Memory.ofBytes, Memory.read_ofBytesAt]

theorem Memory.mem_ofBytesAt {d : List Byte} {b : Nat} {c : Host.Cell} (h : c ∈ Memory.ofBytesAt b d) :
    b ≤ c.1 ∧ c.1 < b + d.length := by
  induction d generalizing b with
  | nil => simp [Memory.ofBytesAt] at h
  | cons x d ih =>
    rcases List.mem_cons.mp h with rfl | h
    · simp
    · have := ih h; simp only [List.length_cons]; omega

theorem Memory.mem_ofBytes {d : List Byte} {c : Host.Cell} (h : c ∈ Memory.ofBytes d) : c.1 < d.length := by
  simpa using (Memory.mem_ofBytesAt h).2

theorem Memory.ofBytesAt_wf (d : List Byte) (b : Nat) : (Memory.ofBytesAt b d).wf := by
  induction d generalizing b with
  | nil => exact List.Pairwise.nil
  | cons x d ih =>
    refine List.Pairwise.cons ?_ (ih (b + 1))
    intro a ha
    obtain ⟨c, hc, rfl⟩ := List.mem_map.mp ha
    have := (Memory.mem_ofBytesAt hc).1
    simpa using this

/-- The frame store of a LOAD is in canonical form. -/
theorem Memory.ofBytes_wf (d : List Byte) : (Memory.ofBytes d).wf := Memory.ofBytesAt_wf d 0

end Sys2Proof.Machine
end

