-- ==== Sys2Proof/Laws/Operands.lean ====
section
/-! SUPPORT. Slots, the capacity, and a record's fields as numbers (30_encoding.md R48 to R51). -/

namespace Sys2Proof.Machine

theorem slotBase_eq (j : Nat) : slotBase j = 1 + 6 * j := rfl

theorem capacity_eq (L : Nat) : capacity L = (L + 1) / 6 := rfl

@[simp] theorem countByte_nil : countByte [] = none := rfl

@[simp] theorem countByte_cons (b : Byte) (d : List Byte) : countByte (b :: d) = some b := rfl

/-- The clamped count needs no more than its 8 bits (R63). -/
@[simp] theorem clampedCount_toNat (L : Nat) (count : Byte) :
    (clampedCount L count).toNat = min count.toNat (capacity L) := by
  have := count.isLt
  simp only [clampedCount, BitVec.toNat_ofNat]
  exact Nat.mod_eq_of_lt (by omega)

theorem clampedCount_le_capacity (L : Nat) (count : Byte) : (clampedCount L count).toNat ≤ capacity L := by
  simp

@[simp] theorem actionField_toNat (r0 : Byte) : (actionField r0).toNat = r0.toNat / 64 := by
  have := r0.isLt
  simp [actionField, Nat.shiftRight_eq_div_pow]
  omega

@[simp] theorem indexField_toNat (r2 : Byte) : (indexField r2).toNat = r2.toNat / 16 := by
  have := r2.isLt
  simp [indexField, Nat.shiftRight_eq_div_pow]
  omega

theorem nibble_append_toNat (a b : Byte) :
    (a.extractLsb' 0 4 ++ b : BitVec 12).toNat = a.toNat % 16 * 256 + b.toNat := by
  have hb := b.isLt
  rw [BitVec.toNat_append, ← Nat.shiftLeft_add_eq_or_of_lt (by simpa using hb)]
  simp [Nat.shiftLeft_eq]

@[simp] theorem xField_toNat (r0 r1 : Byte) : (xField r0 r1).toNat = r0.toNat % 16 * 256 + r1.toNat :=
  nibble_append_toNat r0 r1

@[simp] theorem yField_toNat (r2 r3 : Byte) : (yField r2 r3).toNat = r2.toNat % 16 * 256 + r3.toNat :=
  nibble_append_toNat r2 r3

/-- The fields cut from the bits are the fields computed by division and remainder. -/
theorem pointOfRecord_eq (r0 r1 r2 r3 : Byte) : pointOfRecord r0 r1 r2 r3 = Safety.recordPoint r0 r1 r2 r3 := by
  have h0 := r0.isLt
  have h1 := r1.isLt
  have h2 := r2.isLt
  have h3 := r3.isLt
  simp only [pointOfRecord, Safety.recordPoint, Point.mk.injEq]
  refine ⟨?_, ?_, ?_, ?_⟩ <;> apply BitVec.eq_of_toNat_eq <;>
    simp only [indexField_toNat, actionField_toNat, xField_toNat, yField_toNat, BitVec.toNat_ofNat] <;> omega

end Sys2Proof.Machine
end

