-- ==== Sys2Proof/Laws/Ops.lean ====
section
/-! SUPPORT. What reading one frame byte and decoding one record can answer. -/

namespace Sys2Proof.Machine

@[simp] theorem State.frameByte_ofBytes {s : State} {d : List Byte} (hf : s.frame = Memory.ofBytes d) {i : Nat}
    (h : i < d.length) : s.frameByte i = d[i] := by
  simp [State.frameByte, hf, h]

/-- A frame byte no LOAD has written since reset is the free value of that reset (10_state.md R23). -/
theorem State.frameByte_unspecified {s : State} (hf : s.frame = Memory.unspecified) (i : Nat) :
    s.frameByte i = Config.unspecifiedFrameByte s.resets i := by
  simp [State.frameByte, hf]

/-- There is a frame byte at every index below the frame length (10_state.md R14). -/
theorem State.readFrame_of_lt {s : State} {i : Nat} (h : i < s.frameLen) : s.readFrame i = .ok (s.frameByte i) := by
  simp [State.readFrame, h]

/-- There is no frame byte at or above the frame length (20_memory.md R25). -/
theorem State.readFrame_of_le {s : State} {i : Nat} (h : s.frameLen ≤ i) :
    s.readFrame i = .error (.frameIndexOutOfRange i) := by
  simp [State.readFrame, Nat.not_lt.mpr h]

/-- A frame read answers a byte exactly when the index is inside the frame, and then the byte there. -/
theorem State.readFrame_eq_ok {s : State} {i : Nat} {b : Byte} :
    s.readFrame i = .ok b ↔ i < s.frameLen ∧ s.frameByte i = b := by
  by_cases h : i < s.frameLen <;> simp [State.readFrame, h]

/-- A record decode inside the frame answers the point its four bytes hold (41_point_iteration.md R66). -/
theorem State.decodeRecord_of_lt {s : State} {b : Nat} (h : b + 3 < s.frameLen) :
    s.decodeRecord b = .ok (pointOfRecord (s.frameByte b) (s.frameByte (b + 1)) (s.frameByte (b + 2))
      (s.frameByte (b + 3))) := by
  unfold State.decodeRecord
  rw [State.readFrame_of_lt (i := b) (by omega), State.readFrame_of_lt (i := b + 1) (by omega),
    State.readFrame_of_lt (i := b + 2) (by omega), State.readFrame_of_lt h]
  rfl

/-- A record decode that reaches outside the frame stops (log entry 8). -/
theorem State.decodeRecord_of_le {s : State} {b : Nat} (h : s.frameLen ≤ b + 3) :
    ∃ f, s.decodeRecord b = .error f := by
  unfold State.decodeRecord
  rw [State.readFrame_of_le h]
  cases s.readFrame b <;> cases s.readFrame (b + 1) <;> cases s.readFrame (b + 2) <;>
    simp [bind, Except.bind]

/-- A record decode depends on its four reads alone (20_memory.md R30). -/
theorem State.decodeRecord_congr {s t : State} {b : Nat}
    (h : ∀ k < 4, t.readFrame (b + k) = s.readFrame (b + k)) : t.decodeRecord b = s.decodeRecord b := by
  unfold State.decodeRecord
  rw [← Nat.add_zero b, h 0 (by omega), Nat.add_zero, h 1 (by omega), h 2 (by omega), h 3 (by omega)]

end Sys2Proof.Machine
end

