-- ==== Sys2Proof/Laws/State.lean ====
section
/-! SUPPORT. Each field after each update of the state. -/

namespace Sys2Proof.Machine

variable (s : State) (r : Response) (v count : Byte) (rest : List HostItem) (d : List Byte) (L : Nat)

@[simp] theorem State.respond_frame : (s.respond r).frame = s.frame := rfl
@[simp] theorem State.respond_remaining : (s.respond r).remaining = s.remaining := rfl
@[simp] theorem State.respond_frameLen : (s.respond r).frameLen = s.frameLen := rfl
@[simp] theorem State.respond_input : (s.respond r).input = s.input := rfl
@[simp] theorem State.respond_response : (s.respond r).response = some r := rfl
@[simp] theorem State.respond_resets : (s.respond r).resets = s.resets := rfl

@[simp] theorem State.setRemaining_frame : (s.setRemaining v).frame = s.frame := rfl
@[simp] theorem State.setRemaining_remaining : (s.setRemaining v).remaining = v := rfl
@[simp] theorem State.setRemaining_frameLen : (s.setRemaining v).frameLen = s.frameLen := rfl
@[simp] theorem State.setRemaining_input : (s.setRemaining v).input = s.input := rfl
@[simp] theorem State.setRemaining_response : (s.setRemaining v).response = s.response := rfl
@[simp] theorem State.setRemaining_resets : (s.setRemaining v).resets = s.resets := rfl

@[simp] theorem State.withInput_frame : (s.withInput rest).frame = s.frame := rfl
@[simp] theorem State.withInput_remaining : (s.withInput rest).remaining = s.remaining := rfl
@[simp] theorem State.withInput_frameLen : (s.withInput rest).frameLen = s.frameLen := rfl
@[simp] theorem State.withInput_input : (s.withInput rest).input = rest := rfl
@[simp] theorem State.withInput_response : (s.withInput rest).response = s.response := rfl
@[simp] theorem State.withInput_resets : (s.withInput rest).resets = s.resets := rfl

@[simp] theorem State.latch_frame : (s.latch d count).frame = Memory.ofBytes d := rfl
@[simp] theorem State.latch_remaining : (s.latch d count).remaining = clampedCount s.frameLen count := rfl
@[simp] theorem State.latch_frameLen : (s.latch d count).frameLen = s.frameLen := rfl
@[simp] theorem State.latch_input : (s.latch d count).input = s.input := rfl
@[simp] theorem State.latch_response : (s.latch d count).response = s.response := rfl
@[simp] theorem State.latch_resets : (s.latch d count).resets = s.resets := rfl

@[simp] theorem State.resetEvent_frame : s.resetEvent.frame = Memory.unspecified := rfl
@[simp] theorem State.resetEvent_remaining : s.resetEvent.remaining = 0 := rfl
@[simp] theorem State.resetEvent_frameLen : s.resetEvent.frameLen = s.frameLen := rfl
@[simp] theorem State.resetEvent_input : s.resetEvent.input = s.input := rfl
@[simp] theorem State.resetEvent_response : s.resetEvent.response = none := rfl
@[simp] theorem State.resetEvent_resets : s.resetEvent.resets = s.resets + 1 := rfl

@[simp] theorem State.init_frame : (State.init L).frame = [] := rfl
@[simp] theorem State.init_remaining : (State.init L).remaining = 0 := rfl
@[simp] theorem State.init_frameLen : (State.init L).frameLen = L := rfl
@[simp] theorem State.init_input : (State.init L).input = [] := rfl
@[simp] theorem State.init_response : (State.init L).response = none := rfl
@[simp] theorem State.init_resets : (State.init L).resets = 0 := rfl

@[simp] theorem State.withInput_withInput (rest' : List HostItem) :
    (s.withInput rest).withInput rest' = s.withInput rest' := rfl

@[simp] theorem State.status_eq : s.status = s.remaining := rfl

@[simp] theorem State.exhausted_iff : s.exhausted = true ↔ s.remaining = 0 := by
  simp [State.exhausted]

end Sys2Proof.Machine
end

