-- ==== Sys2Proof/Laws/Exec.lean ====
section
/-! SUPPORT. What each command's meaning can answer. -/

namespace Sys2Proof.Machine

/-- NOP always answers NONE (40_frame_load.md R60). -/
@[simp] theorem execNop_eq (s : State) : execNop s = .next (s.respond .respNone) := rfl

/-- LOAD of a frame of the block's length latches it, whatever the state (40_frame_load.md R63). -/
theorem execLoad_of_length {s : State} {count : Byte} {d : List Byte} (h : (count :: d).length = s.frameLen) :
    execLoad (count :: d) s = .next ((s.latch (count :: d) count).respond .respNone) := by
  simp only [execLoad, countByte_cons, h, if_pos]

/-- LOAD of no frame of the block's length is refused (log entry 7). -/
theorem execLoad_of_other_length {s : State} {d : List Byte} (h : d = [] ∨ d.length ≠ s.frameLen) :
    execLoad d s = .refused (.operandLength d.length s.frameLen) := by
  cases d with
  | nil => rfl
  | cons count d =>
    have h' : (count :: d).length ≠ s.frameLen := by simpa using h
    simp only [execLoad, countByte_cons, if_neg h']

/-- If LOAD answers a next state, it latched a frame of the block's length. -/
theorem execLoad_cases {s t : State} {d : List Byte} (h : execLoad d s = .next t) :
    ∃ count more, d = count :: more ∧ d.length = s.frameLen ∧ t = (s.latch d count).respond .respNone := by
  cases d with
  | nil => exact absurd h (by simp [execLoad])
  | cons count more =>
    by_cases hL : (count :: more).length = s.frameLen
    · rw [execLoad_of_length hL] at h
      exact ⟨count, more, rfl, hL, (Host.Outcome.next.inj h).symm⟩
    · rw [execLoad_of_other_length (.inr hL)] at h
      cases h

/-- The decrement of a cursor that is not 0 does not wrap (41_point_iteration.md R68). -/
theorem remaining_sub_one_toNat {v : Byte} (h : v ≠ 0) : (v - 1).toNat = v.toNat - 1 := by
  have h0 : v.toNat ≠ 0 := fun h' => h (BitVec.eq_of_toNat_eq h')
  have := v.isLt
  rw [BitVec.toNat_sub]
  show (2 ^ 8 - 1 + v.toNat) % 2 ^ 8 = _
  omega

/-- NEXT at the end (41_point_iteration.md R68, R69). -/
theorem execNext_of_exhausted {s : State} (h : s.remaining = 0) : execNext s = .next (s.respond .respEnd) := by
  simp [execNext, h]

/-- NEXT in a sequence answers what the decode of slot `remaining - 1` answers (41_point_iteration.md R67, R68). -/
theorem execNext_of_ne {s : State} (h : s.remaining ≠ 0) :
    execNext s = match s.decodeRecord (slotBase (s.remaining.toNat - 1)) with
      | .ok p => .next ((s.setRemaining (s.remaining - 1)).respond (.respPoint p))
      | .error f => .fault f := by
  have h' : ¬ s.exhausted = true := by simpa using h
  cases hd : s.decodeRecord (slotBase (s.remaining.toNat - 1)) <;>
    simp only [execNext, if_neg h', remaining_sub_one_toNat h, hd]

/-- If NEXT answers a next state, it answered END and changed nothing else, or it decremented the cursor and answered
the point of the slot below. -/
theorem execNext_cases {s t : State} (h : execNext s = .next t) :
    (s.remaining = 0 ∧ t = s.respond .respEnd) ∨
    (s.remaining ≠ 0 ∧ ∃ p, s.decodeRecord (slotBase (s.remaining.toNat - 1)) = .ok p ∧
      t = (s.setRemaining (s.remaining - 1)).respond (.respPoint p)) := by
  by_cases h0 : s.remaining = 0
  · rw [execNext_of_exhausted h0] at h
    exact .inl ⟨h0, (Host.Outcome.next.inj h).symm⟩
  · rw [execNext_of_ne h0] at h
    split at h
    · exact .inr ⟨h0, _, ‹_›, (Host.Outcome.next.inj h).symm⟩
    · cases h

@[simp] theorem exec_nop (s : State) : exec .nop s = execNop s := rfl
@[simp] theorem exec_load (d : List Byte) (s : State) : exec (.load d) s = execLoad d s := rfl
@[simp] theorem exec_next (s : State) : exec .next s = execNext s := rfl

/-- No command changes the frame length, the input left or the count of resets. -/
theorem exec_keeps_interface {i : Instr} {s t : State} (h : exec i s = .next t) :
    t.frameLen = s.frameLen ∧ t.input = s.input ∧ t.resets = s.resets := by
  cases i with
  | nop => cases Host.Outcome.next.inj h; simp
  | load d => obtain ⟨_, _, _, _, rfl⟩ := execLoad_cases h; simp
  | next => obtain ⟨_, rfl⟩ | ⟨_, _, _, rfl⟩ := execNext_cases h <;> simp

end Sys2Proof.Machine
end

