-- ==== Sys2Proof/Laws/HostPort.lean ====
section
/-! SUPPORT. What taking the next event from the input can answer. -/

namespace Sys2Proof.Machine

@[simp] theorem leadingBytes_nil : leadingBytes [] = [] := rfl

@[simp] theorem leadingBytes_reset (rest : List HostItem) : leadingBytes (.reset :: rest) = [] := rfl

@[simp] theorem leadingBytes_byte (b : Byte) (rest : List HostItem) :
    leadingBytes (.byte b :: rest) = b :: leadingBytes rest := rfl

@[simp] theorem leadingBytes_bytes (d : List Byte) (rest : List HostItem) :
    leadingBytes (d.map .byte ++ rest) = d ++ leadingBytes rest := by
  induction d with
  | nil => rfl
  | cons b d ih => simp [ih]

/-- The leading bytes are what the input begins with. -/
theorem input_eq_leadingBytes (items : List HostItem) :
    ∃ rest, items = (leadingBytes items).map .byte ++ rest := by
  induction items with
  | nil => exact ⟨[], rfl⟩
  | cons x items ih =>
    cases x with
    | reset => exact ⟨.reset :: items, rfl⟩
    | byte b => obtain ⟨rest, h⟩ := ih; exact ⟨rest, by simpa using h⟩

@[simp] theorem fetch_nil (L : Nat) : fetch L [] = .stop .hostIdle := rfl

@[simp] theorem fetch_reset (L : Nat) (rest : List HostItem) : fetch L (.reset :: rest) = .reset rest := rfl

@[simp] theorem fetch_opNop (L : Nat) (rest : List HostItem) : fetch L (.byte opNop :: rest) = .command .nop rest := rfl

@[simp] theorem fetch_opNext (L : Nat) (rest : List HostItem) :
    fetch L (.byte opNext :: rest) = .command .next rest := rfl

theorem fetch_opLoad (L : Nat) (rest : List HostItem) :
    fetch L (.byte opLoad :: rest) =
      if L ≤ (leadingBytes rest).length then .command (.load ((leadingBytes rest).take L)) (rest.drop L)
      else .stop .truncatedCommand := by
  simp only [fetch, decode_opLoad]
  by_cases hL : L ≤ (leadingBytes rest).length <;> simp [hL, Nat.add_comm 1 L]

theorem fetch_reserved (L : Nat) {cmd : Byte} (h : 3 ≤ cmd.toNat) (rest : List HostItem) :
    fetch L (.byte cmd :: rest) = .stop (.reservedCommand cmd) := by
  simp only [fetch, decode_reserved L h]

/-- Taking an event from the input is one of these. -/
theorem fetch_cases (L : Nat) (items : List HostItem) :
    (items = [] ∧ fetch L items = .stop .hostIdle) ∨
    (∃ rest, items = .reset :: rest ∧ fetch L items = .reset rest) ∨
    (∃ rest, items = .byte opNop :: rest ∧ fetch L items = .command .nop rest) ∨
    (∃ rest, items = .byte opNext :: rest ∧ fetch L items = .command .next rest) ∨
    (∃ d rest, d.length = L ∧ items = .byte opLoad :: d.map .byte ++ rest ∧ fetch L items = .command (.load d) rest) ∨
    (∃ rest, items = .byte opLoad :: rest ∧ (leadingBytes rest).length < L ∧ fetch L items = .stop .truncatedCommand) ∨
    (∃ cmd rest, 3 ≤ cmd.toNat ∧ items = .byte cmd :: rest ∧ fetch L items = .stop (.reservedCommand cmd)) := by
  rcases items with _ | ⟨_ | cmd, rest⟩
  · simp
  · simp
  · rcases commandByte_cases cmd with rfl | rfl | rfl | h
    · exact .inr (.inr (.inl ⟨rest, rfl, rfl⟩))
    · rw [fetch_opLoad]
      split
      · rename_i hL
        refine .inr (.inr (.inr (.inr (.inl ⟨(leadingBytes rest).take L, rest.drop L, by simpa using hL, ?_, rfl⟩))))
        obtain ⟨more, hmore⟩ := input_eq_leadingBytes rest
        have hdrop : rest.take L = ((leadingBytes rest).take L).map .byte := by
          conv_lhs => rw [hmore]
          rw [List.take_append_of_le_length (by simpa using hL), List.map_take]
        simp only [← hdrop, List.cons_append, List.take_append_drop]
      · exact .inr (.inr (.inr (.inr (.inr (.inl ⟨rest, rfl, by omega, rfl⟩)))))
    · exact .inr (.inr (.inr (.inl ⟨rest, rfl, rfl⟩)))
    · exact .inr (.inr (.inr (.inr (.inr (.inr ⟨cmd, rest, h, rfl, fetch_reserved L h rest⟩)))))

end Sys2Proof.Machine
end

