-- ==== Sys2Proof/Laws/PerInstr.lean ====
section
/-! SUPPORT. Facts about each command as syntax, one lemma per constructor. -/

namespace Sys2Proof.Laws.EncodedLength

/-- The encoding of a well-formed command is as long as its first byte says (30_encoding.md R42). -/
def Statement (i : Instr) : Prop :=
  ∀ L : Nat, i.wellFormed L = true → ∃ cmd bs, encode i = cmd :: bs ∧ (encode i).length = commandLength L cmd

theorem nop : Statement .nop := fun _ _ => ⟨opNop, [], rfl, rfl⟩

theorem load (d : List Byte) : Statement (.load d) := by
  intro L h
  have h : d.length = L := by simpa using h
  exact ⟨opLoad, d, rfl, by simp [h, Nat.add_comm]⟩

theorem next : Statement .next := fun _ _ => ⟨opNext, [], rfl, rfl⟩

end Sys2Proof.Laws.EncodedLength
end

