-- ==== Sys2Proof/Laws/Step.lean ====
section
/-! SUPPORT. What one step and one observed step can answer. -/

namespace Sys2Proof.Machine

/-- If a step answers a next state, it applied a reset event or a command that `fetch` took from the input. -/
theorem step_cases {s t : State} (h : step s = .next t) :
    (∃ rest, fetch s.frameLen s.input = .reset rest ∧ t = (s.withInput rest).resetEvent) ∨
    (∃ i rest, fetch s.frameLen s.input = .command i rest ∧ exec i (s.withInput rest) = .next t) := by
  unfold step at h
  split at h
  · exact .inl ⟨_, ‹_›, (Host.Outcome.next.inj h).symm⟩
  · exact .inr ⟨_, _, ‹_›, h⟩
  · cases h

theorem step_of_reset {s : State} {rest : List HostItem} (h : fetch s.frameLen s.input = .reset rest) :
    step s = .next (s.withInput rest).resetEvent := by
  simp only [step, h]

theorem step_of_command {s : State} {i : Instr} {rest : List HostItem}
    (h : fetch s.frameLen s.input = .command i rest) : step s = exec i (s.withInput rest) := by
  simp only [step, h]

theorem step_of_stop {s : State} {r : Refusal} (h : fetch s.frameLen s.input = .stop r) : step s = .refused r := by
  simp only [step, h]

/-- A step never changes the frame length. -/
theorem step_keeps_frameLen {s t : State} (h : step s = .next t) : t.frameLen = s.frameLen := by
  obtain ⟨_, _, rfl⟩ | ⟨_, _, _, h⟩ := step_cases h
  · simp
  · simpa using (exec_keeps_interface h).1

@[simp] theorem observe_zero (s : State) : observe 0 s = ([], .paused s) := rfl

theorem observe_of_next {s t : State} (h : step s = .next t) (k : Nat) :
    observe (k + 1) s = (⟨t.response, t.status⟩ :: (observe k t).1, (observe k t).2) := by
  simp only [observe, h]

theorem observe_of_fault {s : State} {f : Fault} (h : step s = .fault f) (k : Nat) :
    observe (k + 1) s = ([], .faulted f) := by
  simp only [observe, h]

theorem observe_of_refused {s : State} {r : Refusal} (h : step s = .refused r) (k : Nat) :
    observe (k + 1) s = ([], .refused r) := by
  simp only [observe, h]

/-- What holds in `s`, and after each step from where it holds, holds in every state that `s` reaches. -/
theorem reaches_of_step_keeps {P : State → Prop} (hstep : ∀ s t, P s → step s = .next t → P t) {s t : State}
    (h : Safety.Reaches s t) (hs : P s) : P t := by
  induction h with
  | refl => exact hs
  | tail _ hu ih => exact hstep _ _ ih hu

end Sys2Proof.Machine
end

