-- ==== Sys2Proof/Tests/Slice0.lean ====
section
/-! SUPPORT. The model's own tests, with expected results from the spec's tables (95_test_vectors.md), and a witness for
every statement that has hypotheses. -/

namespace Sys2Proof.Tests

open Sys2Proof.Machine Sys2Proof.Safety

/-- The state a step went to, if it went to one. -/
def next? (o : Host.Outcome State Fault Refusal) : Option State :=
  match o with
  | .next s => some s
  | _ => none

/-- Why a step was refused, if it was. -/
def refusal? (o : Host.Outcome State Fault Refusal) : Option Refusal :=
  match o with
  | .refused r => some r
  | _ => none

/-- Frame A of 95_test_vectors.md 2.4. -/
def frameA : List Byte := [0x02, 0x01, 0x23, 0x04, 0x56, 0x00, 0x00, 0x87, 0xFF, 0x10, 0xA0]

/-- A block of length 11 that holds frame A, with the cursor at `n`. -/
def loadedA (n : Byte) : State := { State.init 11 with frame := Memory.ofBytes frameA, remaining := n }

/-! ## WellFormed: each check refuses an ill-formed term -/

theorem test_wellFormed_refuses_short_load : (Instr.load [0x02]).wellFormed 11 = false := by decide
theorem test_wellFormed_refuses_long_load : (Instr.load (List.replicate 12 0)).wellFormed 11 = false := by decide
theorem test_wellFormed_step_refuses_short_load : (HostStep.command (.load [])).wellFormed 1 = false := by decide
theorem test_legalFrameLen_refuses_0_and_256 : ¬ Config.legalFrameLen 0 ∧ ¬ Config.legalFrameLen 256 := by decide
theorem test_memory_wf_refuses_repeat : ¬ Memory.wf [(1, 5), (1, 6)] := by decide

/-! ## Decode: words written out from 30_encoding.md R43 and 95_test_vectors.md P1, P4 -/

theorem test_decode_nop : decode 11 [0b00000000, 0x55] = .ok (.nop, [0x55]) := by decide
theorem test_decode_next : decode 11 [0b00000010] = .ok (.next, []) := by decide
theorem test_decode_load_P1 :
    decode 11 [0b00000001, 0x02, 0x01, 0x23, 0x04, 0x56, 0x00, 0x00, 0x87, 0xFF, 0x10, 0xA0, 0x02] =
      .ok (.load frameA, [0x02]) := by decide
theorem test_decode_load_P4 :
    decode 7 [0x01, 0x02, 0x01, 0x23, 0x04, 0x56, 0x00, 0x00] =
      .ok (.load [0x02, 0x01, 0x23, 0x04, 0x56, 0x00, 0x00], []) := by decide
theorem test_decode_load_short : decode 11 [0x01, 0x02] = .error .truncated := by decide
theorem test_decode_reserved : [0x03, 0x80, 0xFF].map (fun b => decode 11 [b]) =
    [.error (.reserved 0x03), .error (.reserved 0x80), .error (.reserved 0xFF)] := by decide
theorem test_decodeTableWord : [decodeTableWord 8 0x00, decodeTableWord 8 0x01, decodeTableWord 8 0x02,
    decodeTableWord 8 0x03] = [some .nop, some (.load (List.replicate 11 0)), some .next, none] := by decide
/-- P1's LOAD as a 96-bit number, its first byte least significant. -/
theorem test_decodeTableWord_whole_load :
    decodeTableWord 96 0xA010FF870000560423010201 = some (.load frameA) := by decide

/-! ## Operands: 95_test_vectors.md 2.1, 2.2, 20_memory.md R26 -/

theorem test_record_V2 : pointOfRecord 0xFF 0xFF 0xFF 0xFF = ⟨15, 3, 0xFFF, 0xFFF⟩ := by decide
theorem test_record_V6 : pointOfRecord 0x7F 0x00 0x0F 0x00 = ⟨0, 1, 0xF00, 0xF00⟩ := by decide
theorem test_record_V8 : pointOfRecord 0xC5 0xA5 0x3C 0x5A = ⟨3, 3, 0x5A5, 0xC5A⟩ := by decide
theorem test_record_V9 : pointOfRecord 0xBF 0x80 0xE7 0xFF = ⟨14, 2, 0xF80, 0x7FF⟩ := by decide
theorem test_recordPoint_V8 : recordPoint 0xC5 0xA5 0x3C 0x5A = ⟨3, 3, 0x5A5, 0xC5A⟩ := by decide
theorem test_action_names : [0, 1, 2, 3].map decodeAction =
    [Action.pressDown, .liftUp, .contact, .noAction] := by decide
theorem test_capacity_table : [1, 4, 5, 6, 10, 11, 12, 13, 16, 17, 22, 23, 255].map capacity =
    [0, 0, 1, 1, 1, 2, 2, 2, 2, 3, 3, 4, 42] := by decide
/-- R7: at the reference length the capacity is the chip family's maximum. -/
theorem test_capacity_is_maxPoints : capacity Config.refFrameLen = Config.maxPoints := by decide
/-- R46: the second record's read bytes are the last bytes of the reference frame. -/
theorem test_slot1_fits : slotBase 1 + Config.recordRead = Config.refFrameLen := by decide
theorem test_slot1_registers : frameRegister (slotBase 1) = 0x09 ∧
    frameRegister (slotBase 1 + Config.recordSize - 1) = 0x0E := by decide

/-! ## One step of each command -/

theorem test_nop_keeps_cursor : (next? (exec .nop (loadedA 2))).map (fun t => (t.remaining, t.response)) =
    some (2, some .respNone) := by decide
theorem test_load_clamps_unmasked_counts :
    [0x00, 0x01, 0x02, 0x03, 0x0F, 0x80, 0xFF].map (fun c =>
      (next? (exec (.load (c :: List.replicate 10 0)) (loadedA 1))).map State.remaining) =
      [some 0, some 1, some 2, some 2, some 2, some 2, some 2] := by decide
theorem test_load_other_lengths :
    (next? (exec (.load [0x02, 0x01, 0x23, 0x04, 0x56, 0x00, 0x00]) (State.init 7))).map State.remaining = some 1 ∧
    (next? (exec (.load [0x01, 0, 0, 0]) (State.init 4))).map State.remaining = some 0 := by decide
theorem test_next_slot1 : (next? (exec .next (loadedA 2))).map (fun t => (t.remaining, t.response, t.frame)) =
    some (1, some (.respPoint ⟨1, 2, 0x7FF, 0x0A0⟩), Memory.ofBytes frameA) := by decide
theorem test_next_slot0_then_end :
    (next? (exec .next (loadedA 1))).map (fun t => (t.remaining, t.response)) =
      some (0, some (.respPoint ⟨0, 0, 0x123, 0x456⟩)) ∧
    (next? (exec .next (loadedA 0))).map (fun t => (t.remaining, t.response)) = some (0, some .respEnd) := by decide
theorem test_step_reset : next? (step { loadedA 2 with input := [.reset, .byte 0x02] }) =
    some { State.init 11 with input := [.byte 0x02], resets := 1 } := by decide
/-- R23, R87: after a reset event a frame byte is the free value of that reset, not what the LOAD before it wrote. -/
theorem test_reset_frees_the_frame : (loadedA 2).resetEvent.readFrame 10 = .ok (Config.unspecifiedFrameByte 1 10) := rfl
theorem test_step_reserved : refusal? (step { loadedA 2 with input := [.byte 0x80] }) =
    some (.reservedCommand 0x80) := by decide
theorem test_step_idle : refusal? (step State.reset) = some .hostIdle := by decide
theorem test_fetchWord_load : (next? (step (State.reset.withFetchWord 8 0x01))).map
    (fun t => (t.remaining, t.response, t.input, t.frame.length)) = some (0, some .respNone, [], 11) := by decide
theorem test_fetchWord_next : (next? (step (State.reset.withFetchWord 8 0x02))).map
    (fun t => (t.remaining, t.response, t.input)) = some (0, some .respEnd, []) := by decide

/-! ## The text form (30_encoding.md R58) -/

theorem test_parseByte : [parseByte ['0', 'x', 'F', 'f'], parseByte ['2', '5', '5'], parseByte ['2', '5', '6'],
    parseByte ['0', 'x', '1'], parseByte []] = [some 0xFF, some 255, none, none, none] := by decide
theorem test_parse_refuses_wrong_count : parseProgram 2 ['L', 'O', 'A', 'D', ' ', '1'] = none ∧
    parseProgram 2 ['L', 'O', 'A', 'D', ' ', '1', ',', '0', 'x', '0', '2'] =
      some [.command (.load [1, 2])] := by decide

/-! ## Witnesses: for each statement with hypotheses, a concrete case that meets them all -/

theorem witness_ReservedCommandByteIsRefused : 3 ≤ (0x03 : Byte).toNat ∧ 3 ≤ (0xFF : Byte).toNat ∧
    ({ State.reset with input := [.byte 0x03] } : State).input = .byte 0x03 :: [] := by decide
theorem witness_DecodeOfEncodeIsTheCommand :
    (Instr.load frameA).wellFormed 11 = true ∧ Instr.nop.wellFormed 1 = true ∧ Instr.next.wellFormed 255 = true := by
  decide
theorem witness_EncodeOfDecodeIsTheBytes : decode 1 [0x01, 0x07, 0x02] = .ok (.load [0x07], [0x02]) := by decide
theorem witness_CommandLengthFollowsFromFirstByte : decode 1 (0x01 :: [0x07]) = .ok (.load [0x07], []) ∧
    decode 1 (0x02 :: [0x07]) = .ok (.next, [0x07]) := by decide
theorem witness_StepRunsTheIssuedCommand : (Instr.load frameA).wellFormed (State.init 11).frameLen = true ∧
    ({ State.init 11 with input := (encode (.load frameA)).map .byte ++ [.reset] } : State).input =
      (encode (.load frameA)).map .byte ++ [.reset] := by decide
theorem witness_StepTakesExactlyOneEvent :
    (∃ t, step { loadedA 2 with input := [.reset] } = .next t) ∧ ∃ t, step { loadedA 2 with input := [.byte 0x02] } = .next t :=
  ⟨⟨_, rfl⟩, ⟨_, rfl⟩⟩
theorem witness_LoadCutShortIsRefused : ([0x02] : List Byte).length < (State.init 11).frameLen ∧
    ({ State.init 11 with input := [.byte 0x01, .byte 0x02] } : State).input =
      .byte 0x01 :: ([0x02] : List Byte).map .byte ∧
    ({ State.init 11 with input := [.byte 0x01, .byte 0x02, .reset] } : State).input =
      .byte 0x01 :: ([0x02] : List Byte).map .byte ++ [.reset] := by decide
theorem witness_IdleHostEndsTheRun : (loadedA 1).input = [] := by decide
theorem witness_ResetEventAbandonsTheSequence :
    ({ loadedA 2 with input := [.reset] } : State).input = .reset :: [] := by decide
theorem witness_InvariantHoldsAtReset : Config.legalFrameLen 1 ∧ Config.legalFrameLen 255 := by decide
theorem witness_ResetStateHasCursorZero : 10 < 11 ∧ (State.init 11).resets = 0 := by decide
theorem witness_FrameHoldsExactlyLBytes : 10 < State.reset.frameLen ∧ State.reset.frameLen ≤ 11 := by decide
theorem witness_StepKeepsTheInvariant : Inv { loadedA 2 with input := [.byte 0x02] } ∧
    ∃ t, step { loadedA 2 with input := [.byte 0x02] } = .next t := ⟨by decide, _, rfl⟩
theorem witness_EveryCommandCompletes : Inv (loadedA 2) ∧ Instr.next.wellFormed (loadedA 2).frameLen = true ∧
    (Instr.load frameA).wellFormed (loadedA 2).frameLen = true := by decide
/-- Each of the four ends of ReachableStatesStopOnlyAtTheHost occurs. -/
theorem witness_ReachableStatesStopOnlyAtTheHost :
    Inv { loadedA 2 with input := [.byte 0x02] } ∧
    Reaches { loadedA 2 with input := [.byte 0x02] } { loadedA 2 with input := [.byte 0x02] } ∧
    Inv (loadedA 2) ∧ Inv { loadedA 2 with input := [.byte 0x01] } ∧ Inv { loadedA 2 with input := [.byte 0x03] } :=
  ⟨by decide, .refl _, by decide, by decide, by decide⟩
theorem witness_FrameLengthIsFixedForTheRun :
    ∃ t, Reaches { loadedA 2 with input := [.byte 0x02] } t ∧ t.remaining = 1 :=
  ⟨_, .tail (.refl _) rfl, rfl⟩
theorem witness_LoadLatchesTheFrameAndClampsTheCount : Config.legalFrameLen (loadedA 1).frameLen ∧
    frameA = 0x02 :: frameA.tail ∧ frameA.length = (loadedA 1).frameLen := by decide
theorem witness_LoadForgetsTheStateBefore : (loadedA 1).frameLen = (State.init 11).frameLen ∧
    (loadedA 1).input = (State.init 11).input ∧ (loadedA 1).resets = (State.init 11).resets ∧
    loadedA 1 ≠ State.init 11 := by decide
theorem witness_LoadOfAnotherLengthIsRefused : ([] : List Byte).length ≠ (State.init 11).frameLen ∧
    (List.replicate 12 (0 : Byte)).length ≠ (State.init 11).frameLen := by decide
theorem witness_NextAnswersThePointOrEnd_end : (loadedA 0).remaining = 0 := by decide
theorem witness_NextAnswersThePointOrEnd_slots : (loadedA 2).remaining.toNat = 1 + 1 ∧
    1 + 6 * 1 + 3 < (loadedA 2).frameLen ∧ (loadedA 1).remaining.toNat = 0 + 1 := by decide
theorem witness_NextFaultsExactlyOutsideTheFrame : (loadedA 2).remaining.toNat = 1 + 1 ∧
    ¬ (loadedA 2).frameLen ≤ 1 + 6 * 1 + 3 ∧ (loadedA 3).remaining.toNat = 2 + 1 ∧
    (loadedA 3).frameLen ≤ 1 + 6 * 2 + 3 := by decide
theorem witness_NopAndNextLeaveTheFrame : (∃ t, exec .nop (loadedA 2) = .next t) ∧ ∃ t, exec .next (loadedA 2) = .next t :=
  ⟨⟨_, rfl⟩, ⟨_, rfl⟩⟩
/-- Frame A with another count byte and other bytes 5 and 6 agrees on slot 1, and NEXT runs on it. -/
theorem witness_NextReadsExactlyOneRecord :
    (∀ k < 4, State.readFrame { loadedA 2 with frame := Memory.ofBytes (0x09 :: frameA.tail.set 4 0xEE), resets := 7 }
      (1 + 6 * 1 + k) = (loadedA 2).readFrame (1 + 6 * 1 + k)) ∧ (∃ t, exec .next (loadedA 2) = .next t) ∧
    (∃ f, exec .next (loadedA 3) = .fault f) ∧ ∃ t, exec (.load frameA) (loadedA 2) = .next t :=
  ⟨by decide, ⟨_, rfl⟩, ⟨_, rfl⟩, ⟨_, rfl⟩⟩
theorem witness_RecordDecodeIsTotalAndUndoesPacking : 7 + 3 < (loadedA 2).frameLen ∧
    (loadedA 2).readFrame 7 = .ok (BitVec.ofNat 8 (2 * 64 + 0 * 16 + 0x7FF / 256)) ∧
    (loadedA 2).readFrame (7 + 1) = .ok (BitVec.ofNat 8 (0x7FF % 256)) ∧
    (loadedA 2).readFrame (7 + 2) = .ok (BitVec.ofNat 8 (1 * 16 + 0x0A0 / 256)) ∧
    (loadedA 2).readFrame (7 + 3) = .ok (BitVec.ofNat 8 (0x0A0 % 256)) ∧
    ∀ k < 4, (loadedA 1).readFrame (7 + k) = (loadedA 2).readFrame (7 + k) := by decide
theorem witness_CapacityCountsTheSlotsThatFit : 6 * 42 ≤ 251 + 1 ∧ 255 ≤ 6 * 42 + 4 := by decide
theorem witness_CursorKeepsReadsInsideTheFrame : Inv (loadedA 2) ∧ (loadedA 2).remaining.toNat = 1 + 1 := by decide
theorem witness_EachCommandAnswersAsTheTableSays : (∃ t, exec .nop (loadedA 1) = .next t) ∧
    (∃ t, exec (.load frameA) (loadedA 1) = .next t) ∧
    ((∃ t, exec .next (loadedA 0) = .next t) ∧ (loadedA 0).remaining = 0) ∧
    ((∃ t, exec .next (loadedA 1) = .next t) ∧ (loadedA 1).remaining ≠ 0) :=
  ⟨⟨_, rfl⟩, ⟨_, rfl⟩, ⟨⟨_, rfl⟩, rfl⟩, ⟨⟨_, rfl⟩, by decide⟩⟩
theorem witness_ObservationIsResponseAndCursor : ∃ t, step { loadedA 2 with input := [.byte 0x02] } = .next t := ⟨_, rfl⟩
theorem witness_RunsComposeInIssueOrder :
    (∀ h ∈ [HostStep.command .next, .reset], h.wellFormed (loadedA 2).frameLen = true) ∧
    ∃ os t, observe 2 (issue (loadedA 2) [.command .next, .reset] [.byte 0x02]) = (os, .paused t) :=
  ⟨by decide, _, _, rfl⟩
theorem witness_EndIsAbsorbing : (loadedA 0).remaining = 0 ∧ IterationOnly [.next, .nop, .next] := by decide
theorem witness_SequenceRunsFromTheHighestSlotDown : Config.legalFrameLen (loadedA 1).frameLen ∧
    frameA.length = (loadedA 1).frameLen ∧ IterationOnly [.next, .nop, .next, .next] := by decide
theorem witness_IgnoredBitsAreNeverObserved : frameA.length = (loadedA 1).frameLen ∧
    SameDecodedBits frameA [0x02, 0x31, 0x23, 0x04, 0x56, 0xFF, 0xFF, 0xB7, 0xFF, 0x10, 0xA0] := by decide
theorem witness_UnspecifiedFrameIsNeverObserved : State.reset.remaining = 0 := by decide
theorem witness_ResetBehavesAsALoadOfCountZero : Config.legalFrameLen (loadedA 2).frameLen ∧
    (0x00 :: frameA.tail).length = (loadedA 2).frameLen ∧ (0x00 :: frameA.tail).headD 0 = 0 := by decide
theorem witness_LengthsElevenToSixteenAnswerAlike : 11 ≤ (State.init 11).frameLen ∧ (State.init 16).frameLen ≤ 16 ∧
    frameA.length = (State.init 11).frameLen ∧
    (frameA ++ List.replicate 5 0xEE).length = (State.init 16).frameLen ∧
    frameA.take 11 = (frameA ++ List.replicate 5 0xEE).take 11 ∧ IterationOnly [.next, .next, .next] := by decide
theorem witness_ParseOfRenderIsTheProgram : Config.legalFrameLen 2 ∧
    ∀ h ∈ [HostStep.command (.load [1, 2]), .reset, .command .nop, .command .next], h.wellFormed 2 = true := by decide
theorem witness_LoadedFrameHoldsTheDeviceRegisters : Config.legalFrameLen (State.init 255).frameLen := by decide

end Sys2Proof.Tests
end

section
/-! PROOF. The frame store and who touches it (20_memory.md): LOAD writes it whole, NOP and NEXT leave it, and NEXT reads
one record of it. -/

namespace Sys2Proof.Machine

/-! ## Reads of the frame -/

/-- A frame read depends on the frame store, the frame length and the count of resets, and on no other field. -/
theorem State.readFrame_congr {s t : State} (hframe : t.frame = s.frame) (hlen : t.frameLen = s.frameLen)
    (hresets : t.resets = s.resets) (a : Nat) : t.readFrame a = s.readFrame a := by
  simp only [State.readFrame, State.frameByte, hframe, hlen, hresets]

/-- A frame store that holds the bytes `d` for the whole frame reads as them (30_encoding.md R45). -/
theorem State.readFrame_ofBytes {s : State} {d : List Byte} (hframe : s.frame = Memory.ofBytes d)
    (hlen : d.length = s.frameLen) {a : Nat} (ha : a < d.length) : s.readFrame a = .ok d[a] := by
  rw [State.readFrame_of_lt (hlen ▸ ha), State.frameByte_ofBytes hframe ha]

/-! ## LOAD -/

/-- LOAD of as many bytes as a frame of at least one byte holds completes (40_frame_load.md R63). -/
theorem execLoad_completes {s : State} {d : List Byte} (hpos : 0 < d.length) (hlen : d.length = s.frameLen) :
    ∃ t, execLoad d s = .next t := by
  cases d with
  | nil => exact absurd hpos (Nat.lt_irrefl 0)
  | cons count more => exact ⟨_, execLoad_of_length hlen⟩

/-- A LOAD that completes took L bytes, and every frame byte is then the operand's. -/
theorem execLoad_writes_operand {s t : State} {d : List Byte} (h : execLoad d s = .next t) :
    d.length = s.frameLen ∧ ∀ (a : Nat) (ha : a < d.length), t.readFrame a = .ok d[a] := by
  obtain ⟨count, more, -, hlen, rfl⟩ := execLoad_cases h
  exact ⟨hlen, fun a ha => State.readFrame_ofBytes (by simp) (by simpa using hlen) ha⟩

@[simp] theorem frameOfRegisters_length (L : Nat) (regs : Nat → Byte) : (frameOfRegisters L regs).length = L := by
  simp [frameOfRegisters]

/-- Byte `i` of a frame read from the device is register `0x02 + i` (20_memory.md R26). -/
theorem frameOfRegisters_getElem {L i : Nat} (regs : Nat → Byte) (h : i < (frameOfRegisters L regs).length) :
    (frameOfRegisters L regs)[i] = regs (0x02 + i) := by
  simp [frameOfRegisters, frameRegister, Config.frameRegisterBase]

/-! ## What NOP and NEXT leave -/

/-- NOP and NEXT leave the frame store (20_memory.md R33). -/
theorem exec_keeps_frame {i : Instr} {s t : State} (hi : i = .nop ∨ i = .next) (h : exec i s = .next t) :
    t.frame = s.frame := by
  obtain rfl | rfl := hi
  · cases Host.Outcome.next.inj h; simp
  · obtain ⟨-, rfl⟩ | ⟨-, p, -, rfl⟩ := execNext_cases h <;> simp

/-- NOP and NEXT leave what every frame index reads as. -/
theorem exec_keeps_readFrame {i : Instr} {s t : State} (hi : i = .nop ∨ i = .next) (h : exec i s = .next t) (a : Nat) :
    t.readFrame a = s.readFrame a := by
  obtain ⟨hlen, -, hresets⟩ := exec_keeps_interface h
  exact State.readFrame_congr (exec_keeps_frame hi h) hlen hresets a

/-- NEXT takes one from a cursor that is not 0, and leaves a cursor of 0. -/
theorem execNext_remaining {s t : State} (h : execNext s = .next t) :
    t.remaining.toNat = s.remaining.toNat - 1 := by
  obtain ⟨h0, rfl⟩ | ⟨h0, p, -, rfl⟩ := execNext_cases h
  · simp [h0]
  · simpa using remaining_sub_one_toNat h0

/-! ## What NEXT reads -/

/-- NEXT in a sequence answers the point of the record below the cursor, where that record decodes. -/
theorem execNext_of_decode_ok {s : State} {p : Point} (h0 : s.remaining ≠ 0)
    (hp : s.decodeRecord (slotBase (s.remaining.toNat - 1)) = .ok p) :
    execNext s = .next ((s.setRemaining (s.remaining - 1)).respond (.respPoint p)) := by
  simp only [execNext_of_ne h0, hp]

/-- NEXT in a sequence stops as the decode of the record below the cursor does. -/
theorem execNext_of_decode_error {s : State} {f : Fault} (h0 : s.remaining ≠ 0)
    (hf : s.decodeRecord (slotBase (s.remaining.toNat - 1)) = .error f) : execNext s = .fault f := by
  simp only [execNext_of_ne h0, hf]

/-- If NEXT faults, a sequence is in progress and the decode of the record below the cursor stopped with that fault. -/
theorem execNext_fault_cases {s : State} {f : Fault} (h : execNext s = .fault f) :
    s.remaining ≠ 0 ∧ s.decodeRecord (slotBase (s.remaining.toNat - 1)) = .error f := by
  have h0 : s.remaining ≠ 0 := fun h0 => by
    rw [execNext_of_exhausted h0] at h
    cases h
  cases hd : s.decodeRecord (slotBase (s.remaining.toNat - 1)) with
  | ok p =>
    rw [execNext_of_decode_ok h0 hd] at h
    cases h
  | error g =>
    rw [execNext_of_decode_error h0 hd] at h
    exact ⟨h0, by rw [Host.Outcome.fault.inj h]⟩

/-- `s` over another frame store `m` and the free bytes of another reset `z`: every byte of the frame may differ. -/
def State.withStore (s : State) (m : Memory) (z : Nat) : State := { s with frame := m, resets := z }

@[simp] theorem State.withStore_remaining (s : State) (m : Memory) (z : Nat) :
    (s.withStore m z).remaining = s.remaining := rfl

/-- The record NEXT decodes is the same over two frame stores that read alike at its four bytes. -/
theorem State.decodeRecord_withStore {s : State} {m : Memory} {z : Nat}
    (hread : ∀ n, s.remaining.toNat = n + 1 → ∀ k < 4,
      (s.withStore m z).readFrame (1 + 6 * n + k) = s.readFrame (1 + 6 * n + k))
    (h0 : s.remaining ≠ 0) :
    (s.withStore m z).decodeRecord (slotBase (s.remaining.toNat - 1)) =
      s.decodeRecord (slotBase (s.remaining.toNat - 1)) := by
  have hpos : s.remaining.toNat ≠ 0 := fun h => h0 (BitVec.eq_of_toNat_eq h)
  rw [slotBase_eq]
  exact State.decodeRecord_congr (hread (s.remaining.toNat - 1) (by omega))

/-- NEXT completes alike over two frame stores on which the record below the cursor decodes alike. -/
theorem execNext_withStore_next {s t : State} {m : Memory} {z : Nat}
    (hrecord : s.remaining ≠ 0 → (s.withStore m z).decodeRecord (slotBase (s.remaining.toNat - 1)) =
      s.decodeRecord (slotBase (s.remaining.toNat - 1)))
    (h : execNext s = .next t) : execNext (s.withStore m z) = .next (t.withStore m z) := by
  obtain ⟨h0, rfl⟩ | ⟨h0, p, hp, rfl⟩ := execNext_cases h
  · exact execNext_of_exhausted h0
  · exact execNext_of_decode_ok h0 ((hrecord h0).trans hp)

/-- NEXT faults alike over two frame stores on which the record below the cursor decodes alike. -/
theorem execNext_withStore_fault {s : State} {f : Fault} {m : Memory} {z : Nat}
    (hrecord : s.remaining ≠ 0 → (s.withStore m z).decodeRecord (slotBase (s.remaining.toNat - 1)) =
      s.decodeRecord (slotBase (s.remaining.toNat - 1)))
    (h : execNext s = .fault f) : execNext (s.withStore m z) = .fault f := by
  obtain ⟨h0, hf⟩ := execNext_fault_cases h
  exact execNext_of_decode_error h0 ((hrecord h0).trans hf)

/-! ## The statements -/

/-- Settles O25: NEXT sees the frame only through the decode of one record, and a decode only through its four reads. -/
theorem nextReadsExactlyOneRecord : Obligations.NextReadsExactlyOneRecord := by
  unfold Obligations.NextReadsExactlyOneRecord
  refine ⟨fun s m z hread => ?_, fun s t d h => execLoad_writes_operand h⟩
  have hrecord := State.decodeRecord_withStore (m := m) (z := z) hread
  exact ⟨fun t h => execNext_withStore_next hrecord h, fun f h => execNext_withStore_fault hrecord h⟩

/-- Settles O20: a frame read from the device has L bytes, so its LOAD completes and writes them all. -/
theorem loadedFrameHoldsTheDeviceRegisters : Obligations.LoadedFrameHoldsTheDeviceRegisters := by
  unfold Obligations.LoadedFrameHoldsTheDeviceRegisters
  refine ⟨fun s regs ⟨hpos, _⟩ => ?_, rfl, by decide⟩
  have hlen := frameOfRegisters_length s.frameLen regs
  obtain ⟨t, ht⟩ := execLoad_completes (by omega) hlen
  refine ⟨t, ht, fun i hi => ?_⟩
  have hi' : i < (frameOfRegisters s.frameLen regs).length := hlen.symm ▸ hi
  rw [(execLoad_writes_operand ht).2 i hi', frameOfRegisters_getElem]

/-- Settles O24: neither command writes the frame store, the interface or the count of resets, and NOP not the cursor. -/
theorem nopAndNextLeaveTheFrame : Obligations.NopAndNextLeaveTheFrame := by
  unfold Obligations.NopAndNextLeaveTheFrame
  refine fun s t => ⟨fun h => ?_, fun h => ?_⟩
  · have hcursor : t.remaining = s.remaining := by cases Host.Outcome.next.inj h; simp
    exact ⟨exec_keeps_readFrame (.inl rfl) h, exec_keeps_frame (.inl rfl) h, hcursor, exec_keeps_interface h⟩
  · exact ⟨exec_keeps_readFrame (.inr rfl) h, exec_keeps_frame (.inr rfl) h, execNext_remaining h,
      exec_keeps_interface h⟩

end Sys2Proof.Machine
end

section
/-! PROOF. The commands and their encoding (30_encoding.md): what a command byte starts, what each command answers, and
that the bits the block ignores are never observed. -/

namespace Sys2Proof.Machine

open Safety

/-! ## Taking an encoded command from the input -/

/-- The bytes of a well-formed command are fetched as it, and what follows them is left (30_encoding.md R42). -/
theorem fetch_encode {L : Nat} {i : Instr} (hi : i.wellFormed L = true) (rest : List HostItem) :
    fetch L ((encode i).map .byte ++ rest) = .command i rest := by
  cases i with
  | nop => rfl
  | next => rfl
  | load d =>
    have hd : d.length = L := by simpa using hi
    subst hd
    simp [fetch_opLoad]

/-- A state that a well-formed command is issued to runs it, with what follows left to take. -/
theorem step_issue_command {s : State} {i : Instr} (hi : i.wellFormed s.frameLen = true) (rest : List HostItem) :
    step (issue s [.command i] rest) = exec i (s.withInput rest) := by
  have hfetch : fetch s.frameLen (issue s [.command i] rest).input = .command i rest := by
    simpa [issue, assemble, hostItems] using fetch_encode hi rest
  exact step_of_command hfetch

/-! ## The record in a slot of a loaded frame -/

/-- A record's point does not depend on bits [5:4] of its first byte (30_encoding.md R52). -/
theorem pointOfRecord_and_decodedBits (r0 r1 r2 r3 : Byte) :
    pointOfRecord (r0 &&& 0xCF) r1 r2 r3 = pointOfRecord r0 r1 r2 r3 := by
  have hhigh : (0xCF : Byte).extractLsb' 6 2 = BitVec.allOnes 2 := rfl
  have hlow : (0xCF : Byte).extractLsb' 0 4 = BitVec.allOnes 4 := rfl
  simp only [pointOfRecord, actionField, xField, BitVec.extractLsb'_and, hhigh, hlow, BitVec.and_allOnes]

/-- Frames that agree on the decoded bits of a slot hold the same point there. -/
theorem slotPoint_congr {d e : List Byte} (h : SameDecodedBits d e) {j : Nat} (hj : j < sequenceLength d) :
    slotPoint d j = slotPoint e j := by
  obtain ⟨-, -, hslots⟩ := h
  obtain ⟨h0, h1, h2, h3⟩ := hslots j hj
  simp only [slotPoint, ← pointOfRecord_eq, h1, h2, h3]
  rw [← pointOfRecord_and_decodedBits, h0, pointOfRecord_and_decodedBits]

/-- Every slot of a sequence has its four read bytes inside the frame (40_frame_load.md R62). -/
theorem slot_lt_length {d : List Byte} {j : Nat} (hj : j < sequenceLength d) : 4 + 6 * j < d.length := by
  have : j < (d.length + 1) / 6 := lt_of_lt_of_le hj (min_le_right _ _)
  omega

/-- Over a frame loaded with `d`, the decode of a slot of its sequence answers that slot's point. -/
theorem State.decodeRecord_of_loaded {s : State} {d : List Byte} (hframe : s.frame = Memory.ofBytes d)
    (hlen : d.length = s.frameLen) {j : Nat} (hj : j < sequenceLength d) :
    s.decodeRecord (slotBase j) = .ok (slotPoint d j) := by
  have hfit := slot_lt_length hj
  have hbyte : ∀ i < d.length, s.frameByte i = d.getD i 0 := fun i hi => by
    rw [State.frameByte_ofBytes hframe hi, List.getD_eq_getElem _ _ hi]
  rw [slotBase_eq, State.decodeRecord_of_lt (by omega), pointOfRecord_eq, slotPoint, hbyte _ (by omega),
    hbyte _ (by omega), hbyte _ (by omega), hbyte _ (by omega)]
  simp only [Nat.add_right_comm 1 (6 * j), Nat.reduceAdd]

/-- After a LOAD of `d`, the decode of a slot of its sequence answers that slot's point. -/
theorem State.decodeRecord_latch {s : State} {d : List Byte} {count : Byte} (hlen : d.length = s.frameLen) {j : Nat}
    (hj : j < sequenceLength d) : (s.latch d count).decodeRecord (slotBase j) = .ok (slotPoint d j) :=
  State.decodeRecord_of_loaded (s := s.latch d count) rfl hlen hj

/-- A LOAD sets the cursor to the length of the sequence that its operand starts (40_frame_load.md R63). -/
theorem clampedCount_toNat_eq_sequenceLength (d : List Byte) :
    (clampedCount d.length (d.headD 0)).toNat = sequenceLength d := by
  rw [clampedCount_toNat, capacity_eq, sequenceLength]

/-! ## States that a host cannot tell apart -/

/-- The two states answer alike whatever the host issues: they differ at most in their last response, in the count of
resets, and in frame bytes that no slot of the sequence in progress decodes. -/
structure AnswerAlike (s t : State) : Prop where
  frameLen : s.frameLen = t.frameLen
  input : s.input = t.input
  remaining : s.remaining = t.remaining
  record : ∀ j < s.remaining.toNat, s.decodeRecord (slotBase j) = t.decodeRecord (slotBase j)

/-- Two steps end alike: with one response in states that answer alike, or with one reason to stop. -/
inductive EndAlike : Host.Outcome State Fault Refusal → Host.Outcome State Fault Refusal → Prop where
  | next {s t : State} (hstate : AnswerAlike s t) (hresponse : s.response = t.response) : EndAlike (.next s) (.next t)
  | fault (f : Fault) : EndAlike (.fault f) (.fault f)
  | refused (r : Refusal) : EndAlike (.refused r) (.refused r)

/-- With the cursor at 0 no slot is decoded, so the frame does not matter (10_state.md R24). -/
theorem answerAlike_of_exhausted {s t : State} (hlen : s.frameLen = t.frameLen) (hinput : s.input = t.input)
    (hs : s.remaining = 0) (ht : t.remaining = 0) : AnswerAlike s t :=
  ⟨hlen, hinput, hs.trans ht.symm, fun j hj => by simp [hs] at hj⟩

theorem AnswerAlike.withInput {s t : State} (h : AnswerAlike s t) (rest : List HostItem) :
    AnswerAlike (s.withInput rest) (t.withInput rest) :=
  ⟨h.frameLen, rfl, h.remaining, h.record⟩

theorem AnswerAlike.respond {s t : State} (h : AnswerAlike s t) (r : Response) :
    AnswerAlike (s.respond r) (t.respond r) :=
  ⟨h.frameLen, h.input, h.remaining, h.record⟩

/-- States that answer alike do so with the cursor moved down, as fewer slots are then left to decode. -/
theorem AnswerAlike.setRemaining {s t : State} (h : AnswerAlike s t) {v : Byte}
    (hv : v.toNat ≤ s.remaining.toNat) : AnswerAlike (s.setRemaining v) (t.setRemaining v) :=
  ⟨h.frameLen, h.input, rfl, fun j hj => h.record j (lt_of_lt_of_le hj hv)⟩

/-- Two LOADs whose operands differ only in ignored bits leave states that answer alike. -/
theorem latch_answerAlike {s t : State} {d e : List Byte} (hlen : s.frameLen = t.frameLen)
    (hinput : s.input = t.input) (hd : d.length = s.frameLen) (h : SameDecodedBits d e) :
    AnswerAlike (s.latch d (d.headD 0)) (t.latch e (e.headD 0)) := by
  have ⟨hlength, hcount, _⟩ := h
  have he : e.length = t.frameLen := by omega
  have hsequence : sequenceLength e = sequenceLength d := by simp only [sequenceLength, hlength, hcount]
  refine ⟨hlen, hinput, by simp only [State.latch_remaining, hlen, hcount], fun j hj => ?_⟩
  rw [State.latch_remaining, ← hd, clampedCount_toNat_eq_sequenceLength] at hj
  rw [State.decodeRecord_latch hd hj, State.decodeRecord_latch he (hsequence ▸ hj), slotPoint_congr h hj]

/-- LOAD keeps nothing of the frame before it, and nothing that is observed of the ignored bits of its operand. -/
theorem execLoad_endAlike {s t : State} {d e : List Byte} (hlen : s.frameLen = t.frameLen)
    (hinput : s.input = t.input) (h : SameDecodedBits d e) : EndAlike (execLoad d s) (execLoad e t) := by
  have ⟨hlength, _, _⟩ := h
  by_cases hd : d = [] ∨ d.length ≠ s.frameLen
  · have he : e = [] ∨ e.length ≠ t.frameLen := by
      rwa [← List.length_eq_zero_iff, ← hlength, List.length_eq_zero_iff, ← hlen]
    rw [execLoad_of_other_length hd, execLoad_of_other_length he, hlength, hlen]
    exact .refused _
  · obtain ⟨hne, hd⟩ : d ≠ [] ∧ d.length = s.frameLen := by simpa using hd
    obtain ⟨count, more, rfl⟩ := List.exists_cons_of_ne_nil hne
    obtain ⟨count', more', rfl⟩ := List.exists_cons_of_length_eq_add_one hlength.symm
    rw [execLoad_of_length hd, execLoad_of_length (by omega)]
    exact .next ((latch_answerAlike hlen hinput hd h).respond .respNone) rfl

/-- NEXT answers alike in states that answer alike: it decodes a slot of the sequence in progress, or none. -/
theorem execNext_endAlike {s t : State} (h : AnswerAlike s t) : EndAlike (execNext s) (execNext t) := by
  by_cases h0 : s.remaining = 0
  · rw [execNext_of_exhausted h0, execNext_of_exhausted (h.remaining ▸ h0)]
    exact .next (h.respond .respEnd) rfl
  · have hpred := remaining_sub_one_toNat h0
    have hpos : s.remaining.toNat ≠ 0 := fun hz => h0 (BitVec.eq_of_toNat_eq hz)
    have hrecord := h.record (s.remaining.toNat - 1) (by omega)
    rw [execNext_of_ne h0, execNext_of_ne (h.remaining ▸ h0), ← h.remaining, ← hrecord]
    cases s.decodeRecord (slotBase (s.remaining.toNat - 1)) with
    | ok p => exact .next ((h.setRemaining (by omega)).respond (.respPoint p)) rfl
    | error f => exact .fault f

/-- A command ends alike in states that answer alike. -/
theorem exec_endAlike (i : Instr) {s t : State} (h : AnswerAlike s t) : EndAlike (exec i s) (exec i t) := by
  cases i with
  | nop => exact .next (h.respond .respNone) rfl
  | load d => exact execLoad_endAlike h.frameLen h.input ⟨rfl, rfl, fun _ _ => ⟨rfl, rfl, rfl, rfl⟩⟩
  | next => exact execNext_endAlike h

/-- A step ends alike in states that answer alike: the same event is next, and a reset leaves the cursor at 0. -/
theorem step_endAlike {s t : State} (h : AnswerAlike s t) : EndAlike (step s) (step t) := by
  have hfetch : fetch t.frameLen t.input = fetch s.frameLen s.input := by rw [h.frameLen, h.input]
  cases hf : fetch s.frameLen s.input with
  | reset rest =>
    rw [step_of_reset hf, step_of_reset (hfetch.trans hf)]
    exact .next (answerAlike_of_exhausted h.frameLen rfl rfl rfl) rfl
  | command i rest =>
    rw [step_of_command hf, step_of_command (hfetch.trans hf)]
    exact exec_endAlike i (h.withInput rest)
  | stop r =>
    rw [step_of_stop hf, step_of_stop (hfetch.trans hf)]
    exact .refused r

/-- Runs whose first steps end alike are observed alike, for any number of steps. -/
theorem observe_eq_of_step_endAlike (k : Nat) {s t : State} (h : EndAlike (step s) (step t)) :
    (observe k s).1 = (observe k t).1 := by
  induction k generalizing s t with
  | zero => rfl
  | succ k ih =>
    generalize hs : step s = os, ht : step t = ot at h
    cases h with
    | next hstate hresponse =>
      rw [observe_of_next hs, observe_of_next ht]
      simp only [hresponse, State.status_eq, hstate.remaining, ih (step_endAlike hstate)]
    | fault f => rw [observe_of_fault hs, observe_of_fault ht]
    | refused r => rw [observe_of_refused hs, observe_of_refused ht]

/-! ## The statements -/

/-- Settles O35: the two LOADs end alike, so the runs from them are observed alike. -/
theorem ignoredBitsAreNeverObserved : Obligations.IgnoredBitsAreNeverObserved := by
  unfold Obligations.IgnoredBitsAreNeverObserved
  intro s d e rest k hd h
  have ⟨hlength, _, _⟩ := h
  apply observe_eq_of_step_endAlike
  rw [step_issue_command ((wellFormed_load _ d).2 hd),
    step_issue_command ((wellFormed_load _ e).2 (hlength.symm.trans hd))]
  exact execLoad_endAlike rfl rfl h

/-- Settles O1: a reserved byte is fetched as a refusal, and an observed run ends at one. -/
theorem reservedCommandByteIsRefused : Obligations.ReservedCommandByteIsRefused := by
  unfold Obligations.ReservedCommandByteIsRefused
  intro s cmd rest hcmd hinput
  have hstep : step s = .refused (.reservedCommand cmd) :=
    step_of_stop (by rw [hinput, fetch_reserved _ hcmd])
  exact ⟨hstep, observe_of_refused hstep⟩

/-- Settles O5: the decoder's answer for each first byte; it accepts none of the reserved ones. -/
theorem commandLengthFollowsFromFirstByte : Obligations.CommandLengthFollowsFromFirstByte := by
  unfold Obligations.CommandLengthFollowsFromFirstByte
  intro L cmd bs i rest h
  rcases commandByte_cases cmd with rfl | rfl | rfl | hreserved
  · obtain ⟨rfl, rfl⟩ := Prod.mk.inj (Except.ok.inj h)
    exact ⟨Nat.add_comm _ 1, fun hload => absurd hload (by decide), fun _ => .inl rfl⟩
  · rw [decode_opLoad] at h
    split at h
    next hlength =>
      obtain ⟨rfl, rfl⟩ := Prod.mk.inj (Except.ok.inj h)
      refine ⟨?_, fun _ => rfl, fun hne => absurd rfl hne⟩
      rw [if_pos (show opLoad = 0x01 from rfl), List.length_drop]
      omega
    next => cases h
  · obtain ⟨rfl, rfl⟩ := Prod.mk.inj (Except.ok.inj h)
    exact ⟨Nat.add_comm _ 1, fun hload => absurd hload (by decide), fun _ => .inr rfl⟩
  · rw [decode_reserved L hreserved] at h
    cases h

/-- Settles O30: what each command that completes leaves on the response output. -/
theorem eachCommandAnswersAsTheTableSays : Obligations.EachCommandAnswersAsTheTableSays := by
  unfold Obligations.EachCommandAnswersAsTheTableSays
  refine fun s t => ⟨fun h => ?_, fun d h => ?_, fun h h0 => ?_, fun h h0 => ?_⟩
  · cases Host.Outcome.next.inj h
    rfl
  · obtain ⟨_, _, -, -, rfl⟩ := execLoad_cases h
    rfl
  · obtain ⟨-, rfl⟩ | ⟨hne, -⟩ := execNext_cases h
    · rfl
    · exact absurd h0 hne
  · obtain ⟨hz, -⟩ | ⟨-, p, -, rfl⟩ := execNext_cases h
    · exact absurd hz h0
    · exact ⟨p, rfl⟩

end Sys2Proof.Machine
end

section
/-! PROOF. The frame load family (40_frame_load.md): what a LOAD leaves in the frame and the cursor, and that NEXT does
not see the NOP before it. -/

namespace Sys2Proof.Machine

/-! ## LOAD -/

/-- A frame of at most 255 bytes has room for at most 42 records (40_frame_load.md R62). -/
theorem capacity_le {L : Nat} (h : L ≤ 255) : capacity L ≤ 42 := by
  rw [capacity_eq]
  omega

/-- No command changes what a read outside the frame answers, as none changes the frame length. -/
theorem exec_keeps_readFrame_outside {i : Instr} {s t : State} (h : exec i s = .next t) {a : Nat}
    (ha : s.frameLen ≤ a) : t.readFrame a = s.readFrame a := by
  obtain ⟨hlen, -, -⟩ := exec_keeps_interface h
  rw [State.readFrame_of_le ha, State.readFrame_of_le (hlen ▸ ha)]

/-! ## The response before a command -/

/-- A record decode does not see the response output. -/
@[simp] theorem State.decodeRecord_respond (s : State) (r : Response) (b : Nat) :
    (s.respond r).decodeRecord b = s.decodeRecord b :=
  State.decodeRecord_congr fun k _ => State.readFrame_congr (by simp) (by simp) (by simp) (b + k)

/-- NEXT does not see the response that the step before it left. -/
theorem execNext_respond (s : State) (r : Response) : execNext (s.respond r) = execNext s := by
  by_cases h0 : s.remaining = 0
  · rw [execNext_of_exhausted h0, execNext_of_exhausted (s := s.respond r) h0]
    rfl
  · rw [execNext_of_ne h0, execNext_of_ne (s := s.respond r) h0, State.respond_remaining, State.decodeRecord_respond]
    rfl

/-! ## The statements -/

/-- Settles O18: LOAD latches its operand, of which every byte then reads back, and the clamped count. -/
theorem loadLatchesTheFrameAndClampsTheCount : Obligations.LoadLatchesTheFrameAndClampsTheCount := by
  unfold Obligations.LoadLatchesTheFrameAndClampsTheCount
  rintro s _ count more ⟨-, hmax⟩ rfl hlen
  have hload : exec (.load (count :: more)) s = .next ((s.latch (count :: more) count).respond .respNone) :=
    execLoad_of_length hlen
  have hcursor : (clampedCount s.frameLen count).toNat ≤ 42 :=
    (clampedCount_le_capacity s.frameLen count).trans (capacity_le hmax)
  obtain ⟨-, hbytes⟩ := execLoad_writes_operand (execLoad_of_length hlen)
  exact ⟨rfl, _, hload, rfl, clampedCount_toNat s.frameLen count, hcursor, hbytes,
    fun _ hi => exec_keeps_readFrame_outside hload hi, exec_keeps_interface hload⟩

/-- Settles O17: NOP writes the response alone, and NEXT does not see it. -/
theorem nopOnlyAnswersNone : Obligations.NopOnlyAnswersNone := by
  unfold Obligations.NopOnlyAnswersNone
  exact ⟨rfl, fun s => ⟨execNop_eq s, execNext_respond s .respNone⟩⟩

end Sys2Proof.Machine
end

section
/-! PROOF. The point iteration family (41_point_iteration.md): the decode of a record undoes its packing, NEXT answers
the slot below the cursor, and the NEXTs after a LOAD run from the highest slot down to END. -/

namespace Sys2Proof.Machine

open Safety

/-! ## Record decode -/

/-- A record decode whose four reads answer bytes answers the point they hold (41_point_iteration.md R66). -/
theorem State.decodeRecord_of_reads {s : State} {b : Nat} {r0 r1 r2 r3 : Byte} (h0 : s.readFrame b = .ok r0)
    (h1 : s.readFrame (b + 1) = .ok r1) (h2 : s.readFrame (b + 2) = .ok r2) (h3 : s.readFrame (b + 3) = .ok r3) :
    s.decodeRecord b = .ok (pointOfRecord r0 r1 r2 r3) := by
  unfold State.decodeRecord
  rw [h0, h1, h2, h3]
  rfl

/-- The round-trip law: the bytes packed from a point and any ignored bits `g` hold that point (R66). -/
theorem pointOfRecord_packed (p : Point) (g : BitVec 2) :
    pointOfRecord (BitVec.ofNat 8 (p.action.toNat * 64 + g.toNat * 16 + p.x.toNat / 256))
      (BitVec.ofNat 8 (p.x.toNat % 256)) (BitVec.ofNat 8 (p.index.toNat * 16 + p.y.toNat / 256))
      (BitVec.ofNat 8 (p.y.toNat % 256)) = p := by
  obtain ⟨index, action, x, y⟩ := p
  have hindex := index.isLt
  have haction := action.isLt
  have hx := x.isLt
  have hy := y.isLt
  have hg := g.isLt
  simp only [pointOfRecord, Point.mk.injEq]
  refine ⟨?_, ?_, ?_, ?_⟩ <;> apply BitVec.eq_of_toNat_eq <;>
    simp only [indexField_toNat, actionField_toNat, xField_toNat, yField_toNat, BitVec.toNat_ofNat] <;> omega

/-! ## LOAD and NEXT -/

/-- LOAD of a frame `d` of the block's length latches it with its first byte as the count (40_frame_load.md R63). -/
theorem execLoad_of_frame {s : State} {d : List Byte} (hpos : 0 < d.length) (hlen : d.length = s.frameLen) :
    execLoad d s = .next ((s.latch d (d.headD 0)).respond .respNone) := by
  obtain ⟨count, more, rfl⟩ := List.exists_cons_of_length_pos hpos
  exact execLoad_of_length hlen

/-- NEXT at cursor `n + 1` leaves cursor `n` and answers the point of slot `n` (R67, R68). -/
theorem execNext_of_succ {s : State} {n : Nat} {p : Point} (hcursor : s.remaining.toNat = n + 1)
    (hp : s.decodeRecord (slotBase n) = .ok p) :
    execNext s = .next ((s.setRemaining (BitVec.ofNat 8 n)).respond (.respPoint p)) := by
  have h0 : s.remaining ≠ 0 := fun h => by simp [h] at hcursor
  have hslot : s.remaining.toNat - 1 = n := by omega
  have hpred : s.remaining - 1 = BitVec.ofNat 8 n := by
    rw [← hslot, ← remaining_sub_one_toNat h0, BitVec.ofNat_toNat, BitVec.setWidth_eq]
  rw [execNext_of_decode_ok h0 (hslot.symm ▸ hp), hpred]

/-! ## Commands and what the host issues after them -/

/-- A record decode does not see what the host issues. -/
@[simp] theorem State.decodeRecord_withInput (s : State) (rest : List HostItem) (b : Nat) :
    (s.withInput rest).decodeRecord b = s.decodeRecord b :=
  State.decodeRecord_congr fun k _ => State.readFrame_congr (by simp) (by simp) (by simp) (b + k)

/-- A command that completes does so whatever the host issues after it. -/
theorem exec_withInput {i : Instr} {s t : State} (h : exec i s = .next t) (rest : List HostItem) :
    exec i (s.withInput rest) = .next (t.withInput rest) := by
  cases i with
  | nop => cases Host.Outcome.next.inj h; rfl
  | load d =>
    obtain ⟨count, more, rfl, hlen, rfl⟩ := execLoad_cases h
    exact execLoad_of_length hlen
  | next =>
    obtain ⟨h0, rfl⟩ | ⟨h0, p, hp, rfl⟩ := execNext_cases h
    · exact execNext_of_exhausted h0
    · exact execNext_of_decode_ok h0 ((State.decodeRecord_withInput s rest _).trans hp)

/-- The observation of a run whose first command completes: its response and cursor, then the run of what was issued
after it. -/
theorem observe_issue_command {s t : State} {i : Instr} (hi : i.wellFormed s.frameLen = true)
    (h : exec i s = .next t) (hs : List HostStep) (rest : List HostItem) (k : Nat) :
    (observe (k + 1) (issue s (.command i :: hs) rest)).1 =
      ⟨t.response, t.status⟩ :: (observe k (issue t hs rest)).1 := by
  have hissue : issue s (.command i :: hs) rest = issue s [.command i] (assemble hs ++ rest) := by
    simp [issue, assemble]
  have hstep : step (issue s (.command i :: hs) rest) = .next (issue t hs rest) := by
    rw [hissue, step_issue_command hi, exec_withInput h]
    rfl
  rw [observe_of_next hstep]
  rfl

/-! ## The answers of a sequence -/

/-- What `k` NEXTs answer from cursor `n` over a frame of the bytes `d`: the points of the slots below `n`, highest
first, then END (41_point_iteration.md R70, R71). -/
def nextAnswers (d : List Byte) (n k : Nat) : List Response :=
  (((List.range n).reverse.map fun j => Response.respPoint (slotPoint d j)) ++ List.replicate k Response.respEnd).take k

/-- With no slot left the first of the NEXTs answers END, and so do the others. -/
theorem nextAnswers_zero_succ (d : List Byte) (k : Nat) : nextAnswers d 0 (k + 1) = .respEnd :: nextAnswers d 0 k := by
  simp [nextAnswers, List.replicate_succ]

/-- With slots left the first of the NEXTs answers the highest, and the others go on below it. -/
theorem nextAnswers_succ_succ (d : List Byte) (n k : Nat) :
    nextAnswers d (n + 1) (k + 1) = .respPoint (slotPoint d n) :: nextAnswers d n k := by
  have hlast (l : List Response) : (l ++ List.replicate (k + 1) Response.respEnd).take k =
      (l ++ List.replicate k Response.respEnd).take k := by
    rw [List.replicate_succ', ← List.append_assoc, List.take_append_of_le_length (by simp)]
  simp only [nextAnswers, List.range_succ, List.reverse_concat, List.map_cons, List.cons_append, List.take_succ_cons,
    hlast]

/-- The observations `os` of the NOPs and NEXTs `cs` from cursor `n` over a frame of the bytes `d` obey the sequence
law: one for each command, the answers of the NEXTs in order, and NONE for each NOP. -/
structure ObeysSequenceLaw (d : List Byte) (n : Nat) (cs : List Instr) (os : List Observation) : Prop where
  length : os.length = cs.length
  answers : (responses os).filter (· ≠ .respNone) = nextAnswers d n (cs.count .next)
  nones : (responses os).count .respNone = cs.count .nop

@[simp] theorem responses_cons (r : Response) (v : Byte) (os : List Observation) :
    responses (⟨some r, v⟩ :: os) = r :: responses os := rfl

theorem ObeysSequenceLaw.nil (d : List Byte) (n : Nat) : ObeysSequenceLaw d n [] [] := ⟨rfl, rfl, rfl⟩

/-- One NOP more, which answers NONE and leaves the sequence where it was (40_frame_load.md R60). -/
theorem ObeysSequenceLaw.nop {d : List Byte} {n : Nat} {cs : List Instr} {os : List Observation}
    (h : ObeysSequenceLaw d n cs os) (v : Byte) : ObeysSequenceLaw d n (.nop :: cs) (⟨some .respNone, v⟩ :: os) :=
  ⟨by simp [h.length], by simpa using h.answers, by simp [h.nones]⟩

/-- One NEXT more, which answers what the sequence has next: `r`, of which the rest goes on from cursor `m`. -/
theorem ObeysSequenceLaw.next {d : List Byte} {n m : Nat} {r : Response} {cs : List Instr} {os : List Observation}
    (h : ObeysSequenceLaw d m cs os) (hr : r ≠ .respNone)
    (hfirst : nextAnswers d n (cs.count .next + 1) = r :: nextAnswers d m (cs.count .next)) (v : Byte) :
    ObeysSequenceLaw d n (.next :: cs) (⟨some r, v⟩ :: os) where
  length := by simp [h.length]
  answers := by
    have hcount : (Instr.next :: cs).count .next = cs.count .next + 1 := List.count_cons_self
    have hfilter : (r :: responses os).filter (· ≠ .respNone) = r :: (responses os).filter (· ≠ .respNone) :=
      List.filter_cons_of_pos (by simpa using hr)
    rw [responses_cons, hfilter, h.answers, hcount, hfirst]
  nones := by simp [hr, h.nones]

/-! ## States in a sequence -/

/-- The block holds the whole frame `d` and its cursor is inside the sequence that a LOAD of `d` starts. -/
structure InSequence (d : List Byte) (s : State) : Prop where
  frame : s.frame = Memory.ofBytes d
  frameLen : d.length = s.frameLen
  cursor : s.remaining.toNat ≤ sequenceLength d

theorem InSequence.respond {d : List Byte} {s : State} (h : InSequence d s) (r : Response) :
    InSequence d (s.respond r) :=
  ⟨h.frame, h.frameLen, h.cursor⟩

theorem InSequence.setRemaining {d : List Byte} {s : State} (h : InSequence d s) {v : Byte}
    (hv : v.toNat ≤ s.remaining.toNat) : InSequence d (s.setRemaining v) :=
  ⟨h.frame, h.frameLen, hv.trans h.cursor⟩

/-- A LOAD of `d` sets the cursor to the length of the sequence that it starts (40_frame_load.md R63). -/
theorem latch_remaining_toNat {d : List Byte} {s : State} (hlen : d.length = s.frameLen) :
    (s.latch d (d.headD 0)).remaining.toNat = sequenceLength d := by
  rw [State.latch_remaining, ← hlen, clampedCount_toNat_eq_sequenceLength]

/-- A LOAD of `d` puts the block at the start of the sequence of `d`. -/
theorem InSequence.latch {d : List Byte} {s : State} (hlen : d.length = s.frameLen) :
    InSequence d (s.latch d (d.headD 0)) :=
  ⟨rfl, hlen, (latch_remaining_toNat hlen).le⟩

/-- NEXT in the sequence of `d` at cursor `n + 1` answers the point in slot `n` of `d` (R67). -/
theorem InSequence.execNext_eq {d : List Byte} {s : State} {n : Nat} (h : InSequence d s)
    (hcursor : s.remaining.toNat = n + 1) :
    execNext s = .next ((s.setRemaining (BitVec.ofNat 8 n)).respond (.respPoint (slotPoint d n))) := by
  have hslot : n < sequenceLength d := by
    have := h.cursor
    omega
  exact execNext_of_succ hcursor (State.decodeRecord_of_loaded h.frame h.frameLen hslot)

/-- From any point of a sequence, NOPs and NEXTs obey the sequence law (41_point_iteration.md R69 to R71). -/
theorem observe_obeysSequenceLaw {d : List Byte} (cs : List Instr) (rest : List HostItem) {s : State}
    (h : InSequence d s) (hcs : IterationOnly cs) :
    ObeysSequenceLaw d s.remaining.toNat cs (observe cs.length (issue s (cs.map .command) rest)).1 := by
  induction cs generalizing s with
  | nil => exact .nil d _
  | cons c cs ih =>
    obtain ⟨hc, hmore⟩ := List.forall_mem_cons.1 hcs
    rw [List.length_cons, List.map_cons]
    obtain rfl | rfl := hc
    · rw [observe_issue_command (i := .nop) rfl (execNop_eq s)]
      exact (ih (h.respond .respNone) hmore).nop _
    · cases hn : s.remaining.toNat with
      | zero =>
        have h0 : s.remaining = 0 := BitVec.eq_of_toNat_eq hn
        have htail := ih (h.respond .respEnd) hmore
        rw [State.respond_remaining, hn] at htail
        rw [observe_issue_command (i := .next) rfl (execNext_of_exhausted h0)]
        exact htail.next (by simp) (nextAnswers_zero_succ d _) _
      | succ n =>
        have hdecremented : (BitVec.ofNat 8 n).toNat = n := by
          have := s.remaining.isLt
          exact Nat.mod_eq_of_lt (by omega)
        have hnext := h.setRemaining (v := BitVec.ofNat 8 n) (by omega)
        have htail := ih (hnext.respond (.respPoint (slotPoint d n))) hmore
        rw [State.respond_remaining, State.setRemaining_remaining, hdecremented] at htail
        rw [observe_issue_command (i := .next) rfl (h.execNext_eq hn)]
        exact htail.next (by simp) (nextAnswers_succ_succ d n _) _

/-! ## The statements -/

/-- Settles O34: the LOAD puts the block at the start of the sequence of `d`, from where the sequence law holds. -/
theorem sequenceRunsFromTheHighestSlotDown : Obligations.SequenceRunsFromTheHighestSlotDown := by
  unfold Obligations.SequenceRunsFromTheHighestSlotDown
  rintro s d cs rest ⟨hpos, -⟩ hlen hcs
  have hstart := (InSequence.latch hlen).respond .respNone
  have hlaw := observe_obeysSequenceLaw cs rest hstart hcs
  rw [State.respond_remaining, latch_remaining_toNat hlen] at hlaw
  rw [Nat.add_comm 1 cs.length, Nat.add_comm 1 (cs.count .nop),
    observe_issue_command ((wellFormed_load _ d).2 hlen) (execLoad_of_frame (hlen ▸ hpos) hlen)]
  generalize (observe cs.length _).1 = os at hlaw ⊢
  exact ⟨by simp [hlaw.length], by simpa [nextAnswers] using hlaw.answers, by simp [hlaw.nones]⟩

/-- Settles O22: at cursor 0 NEXT answers END; at cursor `n + 1` it answers the point of the record in slot `n`. -/
theorem nextAnswersThePointOrEnd : Obligations.NextAnswersThePointOrEnd := by
  unfold Obligations.NextAnswersThePointOrEnd
  refine ⟨rfl, fun s => ⟨fun h0 => execNext_of_exhausted h0, fun n hcursor hfit => ?_⟩⟩
  refine ⟨_, _, _, _, State.readFrame_of_lt (by omega), State.readFrame_of_lt (by omega),
    State.readFrame_of_lt (by omega), State.readFrame_of_lt hfit, ?_⟩
  rw [← pointOfRecord_eq]
  exact execNext_of_succ hcursor (State.decodeRecord_of_lt hfit)

/-- Settles O26: the decode inside the frame, the round-trip law, and that a decode depends on its four reads. -/
theorem recordDecodeIsTotalAndUndoesPacking : Obligations.RecordDecodeIsTotalAndUndoesPacking := by
  unfold Obligations.RecordDecodeIsTotalAndUndoesPacking
  refine ⟨fun s b hfit => ?_, fun s b p g h0 h1 h2 h3 => ?_, fun s t b h => State.decodeRecord_congr h⟩
  · exact ⟨_, _, _, _, State.readFrame_of_lt (by omega), State.readFrame_of_lt (by omega),
      State.readFrame_of_lt (by omega), State.readFrame_of_lt hfit, State.decodeRecord_of_lt hfit⟩
  · rw [State.decodeRecord_of_reads h0 h1 h2 h3, pointOfRecord_packed]

end Sys2Proof.Machine
end

section
/-! PROOF. Exceptions (60_exceptions.md R73, R74): the block has none, because under the invariant every command
completes, and each keeps the invariant. -/

namespace Sys2Proof.Safety

open Machine

/-! ## What keeps the invariant -/

/-- The invariant does not see the response output. -/
theorem Inv.respond {s : State} (h : Inv s) (r : Response) : Inv (s.respond r) := h

/-- Lowering the cursor keeps the invariant. -/
theorem Inv.setRemaining {s : State} (h : Inv s) {v : Byte} (hv : v.toNat ≤ s.remaining.toNat) :
    Inv (s.setRemaining v) := by
  obtain ⟨hlegal, hwf, hinside, hcursor, hwhole, hloaded⟩ := h
  have hne : v ≠ 0 → s.remaining ≠ 0 := fun hv0 h0 => hv0 (BitVec.eq_of_toNat_eq (by simpa [h0] using hv))
  exact ⟨hlegal, hwf, hinside, hv.trans hcursor, hwhole, fun hv0 => hloaded (hne hv0)⟩

/-- A latch of L bytes writes every byte of the frame (10_state.md R14). -/
theorem frameLoaded_latch {s : State} {d : List Byte} (hlen : d.length = s.frameLen) (count : Byte) :
    frameLoaded (s.latch d count) := fun a ha => by
  simpa [hlen] using ha

/-- A latch of L bytes establishes the invariant, whatever the frame and the cursor before it (40_frame_load.md R63). -/
theorem Inv.latch {s : State} {d : List Byte} (hlegal : Config.legalFrameLen s.frameLen)
    (hlen : d.length = s.frameLen) (count : Byte) : Inv (s.latch d count) := by
  have hloaded := frameLoaded_latch hlen count
  exact ⟨hlegal, Memory.ofBytes_wf d, fun _ hc => hlen ▸ Memory.mem_ofBytes hc,
    clampedCount_le_capacity s.frameLen count, .inr hloaded, fun _ => hloaded⟩

/-- Every command that completes keeps the invariant. -/
theorem exec_keeps_inv {i : Instr} {s t : State} (hs : Inv s) (h : exec i s = .next t) : Inv t := by
  cases i with
  | nop =>
    cases Host.Outcome.next.inj h
    exact hs.respond .respNone
  | load d =>
    obtain ⟨count, more, -, hlen, rfl⟩ := execLoad_cases h
    obtain ⟨hlegal, -⟩ := hs
    exact (Inv.latch hlegal hlen count).respond .respNone
  | next =>
    obtain ⟨-, rfl⟩ | ⟨h0, p, -, rfl⟩ := execNext_cases h
    · exact hs.respond .respEnd
    · exact (hs.setRemaining (by rw [remaining_sub_one_toNat h0]; omega)).respond (.respPoint p)

/-! ## What completes under the invariant -/

/-- A slot is below the capacity exactly when its four read bytes lie inside the frame (40_frame_load.md R62). -/
theorem lt_capacity_iff {L j : Nat} : j < capacity L ↔ slotBase j + 3 < L := by
  rw [capacity_eq, slotBase_eq]
  omega

/-- The record of every slot below the cursor decodes (20_memory.md R32). -/
theorem Inv.decodeRecord_ok {s : State} (h : Inv s) {j : Nat} (hj : j < s.remaining.toNat) :
    ∃ p, s.decodeRecord (slotBase j) = .ok p := by
  obtain ⟨-, -, -, hcursor, -, -⟩ := h
  exact ⟨_, State.decodeRecord_of_lt (lt_capacity_iff.1 (hj.trans_le hcursor))⟩

/-- NEXT completes: at the end it decodes nothing, and in a sequence its record decodes. -/
theorem Inv.execNext_completes {s : State} (h : Inv s) : ∃ t, execNext s = .next t := by
  cases hcursor : s.remaining.toNat with
  | zero => exact ⟨_, execNext_of_exhausted (BitVec.eq_of_toNat_eq hcursor)⟩
  | succ n =>
    obtain ⟨p, hp⟩ := h.decodeRecord_ok (j := n) (by omega)
    exact ⟨_, execNext_of_succ hcursor hp⟩

/-- Every well-formed command completes under the invariant (60_exceptions.md R74). -/
theorem Inv.exec_completes {s : State} (h : Inv s) {i : Instr} (hi : i.wellFormed s.frameLen = true) :
    ∃ t, exec i s = .next t := by
  cases i with
  | nop => exact ⟨_, execNop_eq s⟩
  | load d =>
    obtain ⟨⟨hpos, -⟩, -⟩ := h
    have hlen : d.length = s.frameLen := (wellFormed_load _ d).1 hi
    exact execLoad_completes (hlen ▸ hpos) hlen
  | next => exact h.execNext_completes

/-- Every command that completes answers a response (30_encoding.md R55). -/
theorem exec_responds {i : Instr} {s t : State} (h : exec i s = .next t) : ∃ r, t.response = some r := by
  cases i with
  | nop => cases Host.Outcome.next.inj h; exact ⟨_, rfl⟩
  | load d => obtain ⟨count, more, -, -, rfl⟩ := execLoad_cases h; exact ⟨_, rfl⟩
  | next => obtain ⟨-, rfl⟩ | ⟨-, p, -, rfl⟩ := execNext_cases h <;> exact ⟨_, rfl⟩

/-! ## The statement -/

/-- Settles O14: under the invariant every command completes; what completes answers, and keeps the invariant. -/
theorem everyCommandCompletes : Obligations.EveryCommandCompletes := by
  unfold Obligations.EveryCommandCompletes
  intro s i hs hi
  obtain ⟨t, h⟩ := hs.exec_completes hi
  obtain ⟨r, hr⟩ := exec_responds h
  exact ⟨t, r, h, hr, exec_keeps_inv hs h⟩

end Sys2Proof.Safety
end

section
/-! PROOF. The decoder and the encoder, what a step takes from the host, the invariant, the runs that a host cannot tell
apart, and the text form (30_encoding.md, 70_reset_and_hazards.md): the statements that belong to no one command. -/

namespace Sys2Proof

/-! ## The decoder and the encoder -/

/-- Settles O3: the decoder on the command byte of each encoding; a LOAD's operand is the next L bytes. -/
theorem decodeOfEncodeIsTheCommand : Obligations.DecodeOfEncodeIsTheCommand := by
  unfold Obligations.DecodeOfEncodeIsTheCommand
  intro L i rest hi
  cases i with
  | nop => exact decode_opNop L rest
  | next => exact decode_opNext L rest
  | load d =>
    have hd : d.length = L := (wellFormed_load L d).1 hi
    rw [encode_load, List.cons_append, decode_opLoad, if_pos (by simp [hd])]
    simp [← hd]

/-- Settles O4: what the decoder answers for each first byte, put back together; it accepts no reserved one. -/
theorem encodeOfDecodeIsTheBytes : Obligations.EncodeOfDecodeIsTheBytes := by
  unfold Obligations.EncodeOfDecodeIsTheBytes
  intro L bs i rest h
  cases bs with
  | nil => cases h
  | cons cmd bs =>
    rcases commandByte_cases cmd with rfl | rfl | rfl | hreserved
    · obtain ⟨rfl, rfl⟩ := Prod.mk.inj (Except.ok.inj h)
      exact ⟨rfl, rfl⟩
    · rw [decode_opLoad] at h
      split at h
      next hlength =>
        obtain ⟨rfl, rfl⟩ := Prod.mk.inj (Except.ok.inj h)
        exact ⟨by simp, by simpa using hlength⟩
      next => cases h
    · obtain ⟨rfl, rfl⟩ := Prod.mk.inj (Except.ok.inj h)
      exact ⟨rfl, rfl⟩
    · rw [decode_reserved L hreserved] at h
      cases h

/-- Settles O2: each of the four byte sequences, decoded. -/
theorem commandBytesDecodeAsTheTableSays : Obligations.CommandBytesDecodeAsTheTableSays := by
  unfold Obligations.CommandBytesDecodeAsTheTableSays
  exact ⟨rfl, rfl, rfl, rfl⟩

end Sys2Proof

namespace Sys2Proof.Safety

open Machine

/-! ## The invariant -/

/-- The invariant does not see what the host issues. -/
theorem Inv.withInput {s : State} (h : Inv s) (rest : List HostItem) : Inv (s.withInput rest) := h

/-- A frame that no LOAD has written, with the cursor at 0, meets the invariant (10_state.md R23). -/
theorem inv_of_unspecified {s : State} (hlegal : Config.legalFrameLen s.frameLen)
    (hframe : s.frame = Memory.unspecified) (hcursor : s.remaining = 0) : Inv s := by
  refine ⟨hlegal, hframe ▸ Memory.unspecified_wf, fun c hc => ?_, by simp [hcursor], .inl hframe,
    fun hne => absurd hcursor hne⟩
  rw [hframe] at hc
  exact absurd hc List.not_mem_nil

/-- Every step keeps the invariant: a reset event establishes it anew, and every command keeps it. -/
theorem step_keeps_inv {s t : State} (hs : Inv s) (h : step s = .next t) : Inv t := by
  obtain ⟨rest, -, rfl⟩ | ⟨i, rest, -, hexec⟩ := step_cases h
  · obtain ⟨hlegal, -⟩ := hs
    exact inv_of_unspecified hlegal rfl rfl
  · exact exec_keeps_inv (hs.withInput rest) hexec

/-- Settles O13: the step lemma of the invariant. -/
theorem stepKeepsTheInvariant : Obligations.StepKeepsTheInvariant := by
  unfold Obligations.StepKeepsTheInvariant
  exact fun s t => step_keeps_inv

/-- Settles O12: an initial state has an unwritten frame and the cursor at 0. -/
theorem invariantHoldsAtReset : Obligations.InvariantHoldsAtReset := by
  unfold Obligations.InvariantHoldsAtReset
  have hinit (L : Nat) (hlegal : Config.legalFrameLen L) : Inv (State.init L) := inv_of_unspecified hlegal rfl rfl
  exact ⟨hinit 11 (by decide), hinit⟩

/-- Under the invariant a step completes unless the input holds no whole command next: the events of `fetch_cases`, with
every command completing. -/
theorem Inv.step_completes_or_stops {s : State} (h : Inv s) :
    (∃ u, step s = .next u) ∨ step s = .refused .hostIdle ∨ step s = .refused .truncatedCommand ∨
      ∃ cmd : Byte, 3 ≤ cmd.toNat ∧ step s = .refused (.reservedCommand cmd) := by
  have hcommand {i : Instr} {rest : List HostItem} (hi : i.wellFormed s.frameLen = true)
      (hf : fetch s.frameLen s.input = .command i rest) : ∃ u, step s = .next u := by
    rw [step_of_command hf]
    exact (h.withInput rest).exec_completes hi
  rcases fetch_cases s.frameLen s.input with ⟨-, hf⟩ | ⟨rest, -, hf⟩ | ⟨rest, -, hf⟩ | ⟨rest, -, hf⟩ |
    ⟨d, rest, hd, -, hf⟩ | ⟨rest, -, -, hf⟩ | ⟨cmd, rest, hcmd, -, hf⟩
  · exact .inr (.inl (step_of_stop hf))
  · exact .inl ⟨_, step_of_reset hf⟩
  · exact .inl (hcommand (wellFormed_nop _) hf)
  · exact .inl (hcommand (wellFormed_next _) hf)
  · exact .inl (hcommand ((wellFormed_load _ d).2 hd) hf)
  · exact .inr (.inr (.inl (step_of_stop hf)))
  · exact .inr (.inr (.inr ⟨cmd, hcmd, step_of_stop hf⟩))

/-- Settles O15: every reachable state meets the invariant, under which a step stops only at the host's input. -/
theorem reachableStatesStopOnlyAtTheHost : Obligations.ReachableStatesStopOnlyAtTheHost := by
  unfold Obligations.ReachableStatesStopOnlyAtTheHost
  intro s t hs hreach
  have ht : Inv t := reaches_of_step_keeps (fun _ _ => step_keeps_inv) hreach hs
  exact ht.step_completes_or_stops

/-- Settles O16: no step changes the frame length, so no run does. -/
theorem frameLengthIsFixedForTheRun : Obligations.FrameLengthIsFixedForTheRun := by
  unfold Obligations.FrameLengthIsFixedForTheRun
  intro s t hreach
  exact reaches_of_step_keeps (P := fun u => u.frameLen = s.frameLen)
    (fun _ _ hu hstep => (step_keeps_frameLen hstep).trans hu) hreach rfl

/-- Settles O29: a slot below the cursor is below the capacity, so its record lies in the frame. -/
theorem cursorKeepsReadsInsideTheFrame : Obligations.CursorKeepsReadsInsideTheFrame := by
  unfold Obligations.CursorKeepsReadsInsideTheFrame
  intro s n hs hcursor
  have hslot : n < s.remaining.toNat := by omega
  have ⟨_, _, _, hcapacity, _, _⟩ := hs
  exact ⟨lt_capacity_iff.1 (hslot.trans_le hcapacity), hs.decodeRecord_ok hslot⟩

/-- Settles O28: the slots that fit, and the capacity's table. -/
theorem capacityCountsTheSlotsThatFit : Obligations.CapacityCountsTheSlotsThatFit := by
  unfold Obligations.CapacityCountsTheSlotsThatFit
  refine ⟨fun L j => lt_capacity_iff, fun L k hlow hhigh => ?_, rfl, rfl⟩
  rw [capacity_eq]
  omega

end Sys2Proof.Safety

namespace Sys2Proof.Machine

open Safety

/-! ## What one step takes from the host -/

/-- A reset event that is fetched stood at the front of the input. -/
theorem input_of_fetch_reset {L : Nat} {items rest : List HostItem} (h : fetch L items = .reset rest) :
    items = .reset :: rest := by
  rcases fetch_cases L items with ⟨-, hf⟩ | ⟨more, hitems, hf⟩ | ⟨more, -, hf⟩ | ⟨more, -, hf⟩ |
    ⟨d, more, -, -, hf⟩ | ⟨more, -, -, hf⟩ | ⟨cmd, more, -, -, hf⟩ <;> cases hf.symm.trans h
  exact hitems

/-- A command that is fetched is well formed, and its encoding stood at the front of the input. -/
theorem input_of_fetch_command {L : Nat} {i : Instr} {items rest : List HostItem}
    (h : fetch L items = .command i rest) :
    i.wellFormed L = true ∧ items = (encode i).map .byte ++ rest := by
  rcases fetch_cases L items with ⟨-, hf⟩ | ⟨more, -, hf⟩ | ⟨more, hitems, hf⟩ | ⟨more, hitems, hf⟩ |
    ⟨d, more, hd, hitems, hf⟩ | ⟨more, -, -, hf⟩ | ⟨cmd, more, -, -, hf⟩ <;> cases hf.symm.trans h
  · exact ⟨rfl, hitems⟩
  · exact ⟨rfl, hitems⟩
  · exact ⟨(wellFormed_load L d).2 hd, hitems⟩

/-- Settles O7: what `fetch` answered says what the input began with. -/
theorem stepTakesExactlyOneEvent : Obligations.StepTakesExactlyOneEvent := by
  unfold Obligations.StepTakesExactlyOneEvent
  intro s t h
  obtain ⟨rest, hf, rfl⟩ | ⟨i, rest, hf, hexec⟩ := step_cases h
  · exact .inl ⟨rest, input_of_fetch_reset hf, rfl⟩
  · obtain ⟨hi, hinput⟩ := input_of_fetch_command hf
    exact .inr ⟨i, rest, hi, hinput, hexec⟩

/-- Settles O6: the encoding at the front of the input is fetched as the command. -/
theorem stepRunsTheIssuedCommand : Obligations.StepRunsTheIssuedCommand := by
  unfold Obligations.StepRunsTheIssuedCommand
  intro s i rest hi hinput
  exact step_of_command (by rw [hinput, fetch_encode hi])

/-- A LOAD is cut short where fewer than L bytes stand before the next reset event or the end (log entry 6). -/
theorem step_of_short_load {s : State} {rest : List HostItem} (hinput : s.input = .byte opLoad :: rest)
    (hshort : (leadingBytes rest).length < s.frameLen) : step s = .refused .truncatedCommand :=
  step_of_stop (by rw [hinput, fetch_opLoad, if_neg (by omega)])

/-- Settles O8: both ways of cutting a LOAD short leave the operand bytes `d` alone before the end or the reset. -/
theorem loadCutShortIsRefused : Obligations.LoadCutShortIsRefused := by
  unfold Obligations.LoadCutShortIsRefused
  rintro s d rest hshort (hinput | hinput)
  · have hbytes : leadingBytes (d.map .byte) = d := by simpa using leadingBytes_bytes d []
    exact step_of_short_load hinput (hbytes.symm ▸ hshort)
  · have hbytes : leadingBytes (d.map .byte ++ .reset :: rest) = d := by simp
    exact step_of_short_load (hinput.trans (List.cons_append ..)) (hbytes.symm ▸ hshort)

/-- Settles O9: with no input nothing is fetched, and an observed run ends at the refusal. -/
theorem idleHostEndsTheRun : Obligations.IdleHostEndsTheRun := by
  unfold Obligations.IdleHostEndsTheRun
  intro s hinput
  have hstep : step s = .refused .hostIdle := step_of_stop (by rw [hinput, fetch_nil])
  exact ⟨hstep, observe_of_refused hstep⟩

/-! ## The frame in a state -/

/-- A frame that no LOAD has written reads as the free bytes of the last reset (10_state.md R23). -/
theorem State.readFrame_unspecified {s : State} (hframe : s.frame = Memory.unspecified) {a : Nat}
    (ha : a < s.frameLen) : s.readFrame a = .ok (Config.unspecifiedFrameByte s.resets a) := by
  rw [State.readFrame_of_lt ha, State.frameByte_unspecified hframe]

/-- Settles O10: the step is the reset event over the rest of the input. -/
theorem resetEventAbandonsTheSequence : Obligations.ResetEventAbandonsTheSequence := by
  unfold Obligations.ResetEventAbandonsTheSequence
  intro s rest hinput
  have hstep : step s = .next (s.withInput rest).resetEvent := step_of_reset (by rw [hinput, fetch_reset])
  exact ⟨_, hstep, rfl, rfl, rfl, rfl, rfl, fun a ha => State.readFrame_unspecified rfl ha⟩

/-- Settles O11: the fields of an initial state, and the reads of its unwritten frame. -/
theorem resetStateHasCursorZero : Obligations.ResetStateHasCursorZero := by
  unfold Obligations.ResetStateHasCursorZero
  exact ⟨rfl, fun L => ⟨rfl, rfl, rfl, fun a ha => State.readFrame_unspecified rfl ha⟩⟩

/-- Settles O41: a read inside the frame, and one outside it. -/
theorem frameHoldsExactlyLBytes : Obligations.FrameHoldsExactlyLBytes := by
  unfold Obligations.FrameHoldsExactlyLBytes
  exact fun s a => ⟨fun ha => ⟨_, State.readFrame_of_lt ha⟩, State.readFrame_of_le⟩

/-! ## LOAD, NEXT and the action names -/

/-- Settles O21: such an operand is no LOAD of this block. -/
theorem loadOfAnotherLengthIsRefused : Obligations.LoadOfAnotherLengthIsRefused := by
  unfold Obligations.LoadOfAnotherLengthIsRefused
  exact fun s d hlen => execLoad_of_other_length (.inr hlen)

/-- A latch overwrites all of the state but the frame length, the input and the count of resets. -/
theorem State.latch_respond_congr {s u : State} (hlen : s.frameLen = u.frameLen) (hinput : s.input = u.input)
    (hresets : s.resets = u.resets) (d : List Byte) (count : Byte) (r : Response) :
    (s.latch d count).respond r = (u.latch d count).respond r := by
  simp only [State.latch, State.respond, hlen, hinput, hresets]

/-- Settles O19: an operand of length L latches the same in both states, and any other is refused alike. -/
theorem loadForgetsTheStateBefore : Obligations.LoadForgetsTheStateBefore := by
  unfold Obligations.LoadForgetsTheStateBefore
  intro s u d hlen hinput hresets
  by_cases hd : 0 < d.length ∧ d.length = s.frameLen
  · obtain ⟨hpos, hs⟩ := hd
    rw [exec_load, exec_load, execLoad_of_frame hpos hs, execLoad_of_frame hpos (hs.trans hlen),
      State.latch_respond_congr hlen hinput hresets]
  · have hother : d = [] ∨ d.length ≠ s.frameLen := by
      rw [← List.length_eq_zero_iff]
      omega
    rw [exec_load, exec_load, execLoad_of_other_length hother, execLoad_of_other_length (hlen ▸ hother), hlen]

/-- Settles O23: NEXT faults as the decode of slot `n` does, which stops exactly outside the frame. -/
theorem nextFaultsExactlyOutsideTheFrame : Obligations.NextFaultsExactlyOutsideTheFrame := by
  unfold Obligations.NextFaultsExactlyOutsideTheFrame
  intro s n hcursor
  constructor
  · rintro ⟨f, hf⟩
    by_contra hinside
    have hp := State.decodeRecord_of_lt (s := s) (b := slotBase n) (by rw [slotBase_eq]; omega)
    rw [exec_next, execNext_of_succ hcursor hp] at hf
    cases hf
  · intro houtside
    have h0 : s.remaining ≠ 0 := fun h => by simp [h] at hcursor
    have hslot : s.remaining.toNat - 1 = n := by omega
    obtain ⟨f, hf⟩ := State.decodeRecord_of_le (s := s) (b := slotBase n) houtside
    exact ⟨f, execNext_of_decode_error h0 (hslot.symm ▸ hf)⟩

/-- Settles O27: the four codes are checked one by one, and so are the four names. -/
theorem actionCodesAndNamesAgree : Obligations.ActionCodesAndNamesAgree := by
  unfold Obligations.ActionCodesAndNamesAgree
  exact ⟨rfl, rfl, rfl, rfl, by decide, fun a => by cases a <;> rfl⟩

/-! ## Runs that are observed alike -/

/-- Settles O31: the status output is the cursor. -/
theorem observationIsResponseAndCursor : Obligations.ObservationIsResponseAndCursor := by
  unfold Obligations.ObservationIsResponseAndCursor
  exact fun k s t h => observe_of_next h k

/-- Settles O36: with the cursor at 0 the two states answer alike. -/
theorem unspecifiedFrameIsNeverObserved : Obligations.UnspecifiedFrameIsNeverObserved := by
  unfold Obligations.UnspecifiedFrameIsNeverObserved
  intro s m z k h0
  exact observe_eq_of_step_endAlike k (step_endAlike (answerAlike_of_exhausted rfl rfl h0 h0))

/-- What is observed after the first step of a run is the run from the state that the step left. -/
theorem observe_tail {s t : State} (h : step s = .next t) (k : Nat) :
    (observe (k + 1) s).1.tail = (observe k t).1 := by
  rw [observe_of_next h]
  rfl

/-- A count byte of 0 sets the cursor to 0, whatever the capacity. -/
theorem clampedCount_zero (L : Nat) : clampedCount L 0 = 0 := BitVec.eq_of_toNat_eq (by simp)

/-- Settles O37: the reset event and the LOAD both leave the cursor at 0, from where the two runs are observed alike. -/
theorem resetBehavesAsALoadOfCountZero : Obligations.ResetBehavesAsALoadOfCountZero := by
  unfold Obligations.ResetBehavesAsALoadOfCountZero
  rintro s d rest k ⟨hpos, -⟩ hlen hcount
  have hreset : step (issue s [.reset] rest) = .next (s.withInput rest).resetEvent := step_of_reset rfl
  have hload : step (issue s [.command (.load d)] rest) =
      .next (((s.withInput rest).latch d (d.headD 0)).respond .respNone) := by
    rw [step_issue_command ((wellFormed_load _ d).2 hlen)]
    exact execLoad_of_frame (hlen ▸ hpos) hlen
  have hcursor : ((s.withInput rest).latch d (d.headD 0)).remaining = 0 := by
    rw [State.latch_remaining, hcount, clampedCount_zero]
  rw [observe_tail hreset, observe_tail hload]
  exact observe_eq_of_step_endAlike k (step_endAlike (answerAlike_of_exhausted rfl rfl rfl hcursor))

/-- Two blocks at one cursor of two sequences that hold the same points answer NOPs and NEXTs alike, whatever the two
frame lengths. -/
theorem observe_eq_of_inSequence {d e : List Byte} (hpoints : ∀ j < sequenceLength d, slotPoint d j = slotPoint e j)
    (cs : List Instr) (rest : List HostItem) {s u : State} (hs : InSequence d s) (hu : InSequence e u)
    (hcursor : s.remaining = u.remaining) (hcs : IterationOnly cs) :
    (observe cs.length (issue s (cs.map .command) rest)).1 =
      (observe cs.length (issue u (cs.map .command) rest)).1 := by
  induction cs generalizing s u with
  | nil => rfl
  | cons c cs ih =>
    obtain ⟨hc, hmore⟩ := List.forall_mem_cons.1 hcs
    rw [List.length_cons, List.map_cons]
    obtain rfl | rfl := hc
    · rw [observe_issue_command (i := .nop) rfl (execNop_eq s), observe_issue_command (i := .nop) rfl (execNop_eq u),
        ih (hs.respond .respNone) (hu.respond .respNone) hcursor hmore]
      simp [hcursor]
    · cases hn : s.remaining.toNat with
      | zero =>
        have h0 : s.remaining = 0 := BitVec.eq_of_toNat_eq hn
        rw [observe_issue_command (i := .next) rfl (execNext_of_exhausted h0),
          observe_issue_command (i := .next) rfl (execNext_of_exhausted (hcursor ▸ h0)),
          ih (hs.respond .respEnd) (hu.respond .respEnd) hcursor hmore]
        simp [hcursor]
      | succ n =>
        have hn' : u.remaining.toNat = n + 1 := hcursor ▸ hn
        have hcursor_le := hs.cursor
        have hlower : (BitVec.ofNat 8 n).toNat ≤ n := Nat.mod_le _ _
        have hpoint : slotPoint d n = slotPoint e n := hpoints n (by omega)
        rw [observe_issue_command (i := .next) rfl (hs.execNext_eq hn),
          observe_issue_command (i := .next) rfl (hu.execNext_eq hn'),
          ih ((hs.setRemaining (by omega)).respond (.respPoint (slotPoint d n)))
            ((hu.setRemaining (by omega)).respond (.respPoint (slotPoint e n))) rfl hmore]
        simp [hpoint]

/-- Frames that agree on their first `m` bytes agree on each of those bytes. -/
theorem getD_eq_of_take_eq {d e : List Byte} {m i : Nat} (h : d.take m = e.take m) (hi : i < m) :
    d.getD i 0 = e.getD i 0 := by
  have hget : (d.take m)[i]? = (e.take m)[i]? := by rw [h]
  rw [List.getElem?_take_of_lt hi, List.getElem?_take_of_lt hi] at hget
  rw [List.getD_eq_getElem?_getD, List.getD_eq_getElem?_getD, hget]

/-- A slot whose four read bytes lie in the part on which two frames agree holds the same point in both. -/
theorem slotPoint_eq_of_take_eq {d e : List Byte} {m j : Nat} (h : d.take m = e.take m) (hj : 4 + 6 * j < m) :
    slotPoint d j = slotPoint e j := by
  simp only [slotPoint, getD_eq_of_take_eq h (show 1 + 6 * j < m by omega),
    getD_eq_of_take_eq h (show 2 + 6 * j < m by omega), getD_eq_of_take_eq h (show 3 + 6 * j < m by omega),
    getD_eq_of_take_eq h (show 4 + 6 * j < m by omega)]

/-- A frame of 11 to 16 bytes has room for two records (40_frame_load.md R62). -/
theorem sequenceLength_of_eleven_to_sixteen {d : List Byte} (hlow : 11 ≤ d.length) (hhigh : d.length ≤ 16) :
    sequenceLength d = min (d.headD 0).toNat 2 := by
  have hcapacity : (d.length + 1) / 6 = 2 := by omega
  rw [sequenceLength, hcapacity]

/-- The observation of a run whose first command is a LOAD: NONE and the length of the sequence that its operand starts,
then the run from the start of that sequence. -/
theorem observe_issue_load {s : State} {d : List Byte} (hpos : 0 < d.length) (hlen : d.length = s.frameLen)
    (hs : List HostStep) (rest : List HostItem) (k : Nat) :
    (observe (1 + k) (issue s (.command (.load d) :: hs) rest)).1 =
      ⟨some .respNone, (s.latch d (d.headD 0)).remaining⟩ ::
        (observe k (issue ((s.latch d (d.headD 0)).respond .respNone) hs rest)).1 := by
  rw [Nat.add_comm, observe_issue_command ((wellFormed_load _ d).2 hlen) (execLoad_of_frame hpos hlen)]
  rfl

/-- Settles O38: both LOADs start a sequence of at most two slots, whose read bytes are among the first eleven. -/
theorem lengthsElevenToSixteenAnswerAlike : Obligations.LengthsElevenToSixteenAnswerAlike := by
  unfold Obligations.LengthsElevenToSixteenAnswerAlike
  intro s u d e cs hslow hshigh hulow huhigh hd he htake hcs
  have hcount : d.headD 0 = e.headD 0 := by
    simpa [List.getD_eq_getElem?_getD, List.head?_eq_getElem?] using
      getD_eq_of_take_eq htake (show 0 < 11 by omega)
  have hsequence := sequenceLength_of_eleven_to_sixteen (d := d) (by omega) (by omega)
  have hcursor : (s.latch d (d.headD 0)).remaining = (u.latch e (e.headD 0)).remaining := by
    apply BitVec.eq_of_toNat_eq
    rw [latch_remaining_toNat hd, latch_remaining_toNat he, hsequence,
      sequenceLength_of_eleven_to_sixteen (by omega) (by omega), hcount]
  have hpoints : ∀ j < sequenceLength d, slotPoint d j = slotPoint e j := fun j hj =>
    slotPoint_eq_of_take_eq htake (by omega)
  rw [observe_issue_load (by omega) hd, observe_issue_load (by omega) he, hcursor,
    observe_eq_of_inSequence hpoints cs [] ((InSequence.latch hd).respond .respNone)
      ((InSequence.latch he).respond .respNone) hcursor hcs]

/-! ## Runs in issue order -/

/-- A step that completes on a well-formed step of the host took exactly what was issued for it. -/
theorem step_takes_hostItems {s t : State} {h : HostStep} {rest : List HostItem}
    (hwf : h.wellFormed s.frameLen = true) (hinput : s.input = hostItems h ++ rest) (hstep : step s = .next t) :
    t.input = rest := by
  cases h with
  | reset =>
    rw [step_of_reset (rest := rest) (by rw [hinput]; rfl)] at hstep
    cases hstep
    rfl
  | command i =>
    rw [step_of_command (by rw [hinput]; exact fetch_encode hwf rest)] at hstep
    obtain ⟨-, htaken, -⟩ := exec_keeps_interface hstep
    exact htaken

/-- A run that reaches its bound made each of its steps: the first completed, and the rest is a run from there. -/
theorem observe_succ_paused {s t : State} {k : Nat} {os : List Observation}
    (h : observe (k + 1) s = (os, .paused t)) :
    ∃ u, step s = .next u ∧ os = ⟨u.response, u.status⟩ :: (observe k u).1 ∧
      observe k u = ((observe k u).1, .paused t) := by
  cases hstep : step s with
  | next u =>
    rw [observe_of_next hstep] at h
    obtain ⟨hos, hend⟩ := Prod.mk.inj h
    exact ⟨u, rfl, hos.symm, Prod.ext rfl hend⟩
  | fault f =>
    rw [observe_of_fault hstep] at h
    cases h
  | refused r =>
    rw [observe_of_refused hstep] at h
    cases h

/-- A run of `j` steps that paused made `j` observations, and a longer one goes on from where it paused. -/
theorem observe_add_of_paused (j k : Nat) {s t : State} {os : List Observation}
    (h : observe j s = (os, .paused t)) :
    os.length = j ∧ observe (j + k) s = (os ++ (observe k t).1, (observe k t).2) := by
  induction j generalizing s os with
  | zero =>
    cases h
    simp
  | succ j ih =>
    obtain ⟨u, hstep, rfl, hmore⟩ := observe_succ_paused h
    obtain ⟨hlength, hlonger⟩ := ih hmore
    rw [Nat.add_right_comm, observe_of_next hstep, hlonger]
    simp [hlength]

/-- A run over well-formed steps of the host that pauses after them took exactly what was issued for them. -/
theorem observe_paused_input (hs : List HostStep) {s t : State} {rest : List HostItem} {os : List Observation}
    (hwf : ∀ h ∈ hs, h.wellFormed s.frameLen = true) (hinput : s.input = assemble hs ++ rest)
    (h : observe hs.length s = (os, .paused t)) : t.input = rest := by
  induction hs generalizing s os with
  | nil =>
    cases h
    exact hinput
  | cons x hs ih =>
    obtain ⟨hx, hmore⟩ := List.forall_mem_cons.1 hwf
    obtain ⟨u, hstep, -, hrun⟩ := observe_succ_paused h
    have htaken : u.input = assemble hs ++ rest :=
      step_takes_hostItems hx (by simpa [assemble] using hinput) hstep
    exact ih (step_keeps_frameLen hstep ▸ hmore) htaken hrun

/-- Settles O32: the steps issued are taken one by one, and the run goes on from where it paused. -/
theorem runsComposeInIssueOrder : Obligations.RunsComposeInIssueOrder := by
  unfold Obligations.RunsComposeInIssueOrder
  intro s t hs rest os k hwf h
  exact ⟨observe_paused_input (s := issue s hs rest) hs hwf rfl h, observe_add_of_paused hs.length k h⟩

/-- A state that a well-formed command and more steps are issued to runs the command, with the rest left to take. -/
theorem step_issue_cons {s t : State} {i : Instr} (hi : i.wellFormed s.frameLen = true) (h : exec i s = .next t)
    (hs : List HostStep) (rest : List HostItem) :
    step (issue s (.command i :: hs) rest) = .next (issue t hs rest) := by
  have hissue : issue s (.command i :: hs) rest = issue s [.command i] (assemble hs ++ rest) := by
    simp [issue, assemble]
  rw [hissue, step_issue_command hi, exec_withInput h]
  rfl

/-- At cursor 0 a NOP answers NONE and a NEXT answers END, and nothing else changes (41_point_iteration.md R69). -/
theorem exec_of_exhausted {s : State} {c : Instr} (h0 : s.remaining = 0) (hc : c = .nop ∨ c = .next) :
    exec c s = .next (s.respond (if c = .next then .respEnd else .respNone)) := by
  obtain rfl | rfl := hc
  · exact execNop_eq s
  · exact execNext_of_exhausted h0

/-- Settles O33: each NOP or NEXT leaves the cursor at 0, so the next one finds it there. -/
theorem endIsAbsorbing : Obligations.EndIsAbsorbing := by
  unfold Obligations.EndIsAbsorbing
  intro s cs rest h0 hcs
  induction cs generalizing s with
  | nil => exact ⟨_, rfl, rfl, h0, rfl, rfl, rfl⟩
  | cons c cs ih =>
    obtain ⟨hc, hmore⟩ := List.forall_mem_cons.1 hcs
    have hwf : c.wellFormed s.frameLen = true := by obtain rfl | rfl := hc <;> rfl
    have hstep := step_issue_cons hwf (exec_of_exhausted h0 hc) (cs.map .command) rest
    obtain ⟨t, hrun, ht⟩ := ih (s.respond (if c = .next then .respEnd else .respNone)) h0 hmore
    refine ⟨t, ?_, ht⟩
    rw [List.length_cons, List.map_cons, observe_of_next hstep, hrun]
    simp [issue, h0]

/-! ## The text form -/

/-- A printed byte holds no character that separates operands, ends a line or starts a comment. -/
theorem not_separator_of_mem_renderByte {b : Byte} {c : Char} (h : c ∈ renderByte b) :
    c ≠ ',' ∧ c ≠ ';' ∧ c ≠ '\n' := by
  have hb := b.isLt
  have hhigh := hexChar_not_separator (b.toNat / 16) (by omega)
  have hlow := hexChar_not_separator (b.toNat % 16) (by omega)
  simp only [renderByte, List.mem_cons, List.not_mem_nil, or_false] at h
  rcases h with rfl | rfl | rfl | rfl
  · decide
  · decide
  · exact hhigh.2
  · exact hlow.2

theorem renderBytes_cons_cons (b c : Byte) (d : List Byte) :
    renderBytes (b :: c :: d) = renderByte b ++ ',' :: ' ' :: renderBytes (c :: d) := rfl

/-- A printed text begins and ends with characters that are no blanks, so that trimming leaves it. -/
def EndsUnblank (text : List Char) : Prop :=
  ∃ (x y : Char) (m : List Char), text = x :: m ++ [y] ∧ isBlank x = false ∧ isBlank y = false

theorem EndsUnblank.trimBlanks_eq {text : List Char} (h : EndsUnblank text) : trimBlanks text = text := by
  obtain ⟨x, y, m, rfl, hx, hy⟩ := h
  exact trimBlanks_of_ends m hx hy

theorem EndsUnblank.append {a b : List Char} (ha : EndsUnblank a) (hb : EndsUnblank b) (m : List Char) :
    EndsUnblank (a ++ m ++ b) := by
  obtain ⟨x, y, k, rfl, hx, -⟩ := ha
  obtain ⟨x', y', k', rfl, -, hy'⟩ := hb
  exact ⟨x, y', k ++ [y] ++ m ++ x' :: k', by simp, hx, hy'⟩

theorem renderByte_endsUnblank (b : Byte) : EndsUnblank (renderByte b) := by
  obtain ⟨hlow, -⟩ := hexChar_not_separator (b.toNat % 16) (by omega)
  exact ⟨'0', _, ['x', hexChar (b.toNat / 16)], rfl, rfl, hlow⟩

theorem renderBytes_endsUnblank (b : Byte) (d : List Byte) : EndsUnblank (renderBytes (b :: d)) := by
  induction d generalizing b with
  | nil => exact renderByte_endsUnblank b
  | cons c d ih => simpa [renderBytes_cons_cons] using (renderByte_endsUnblank b).append (ih c) [',', ' ']

/-- Printed operands stay on one line and start no comment. -/
theorem not_separator_of_mem_renderBytes {d : List Byte} {c : Char} (h : c ∈ renderBytes d) : c ≠ ';' ∧ c ≠ '\n' := by
  induction d using renderBytes.induct with
  | case1 => exact absurd h List.not_mem_nil
  | case2 b => exact (not_separator_of_mem_renderByte h).2
  | case3 b b' d ih =>
    rw [renderBytes_cons_cons] at h
    simp only [List.mem_append, List.mem_cons] at h
    rcases h with h | rfl | rfl | h
    · exact (not_separator_of_mem_renderByte h).2
    · decide
    · decide
    · exact ih h

/-- A printed step stays on one line and starts no comment. -/
theorem not_separator_of_mem_renderStep {h : HostStep} {c : Char} (hc : c ∈ renderStep h) : c ≠ ';' ∧ c ≠ '\n' := by
  cases h with
  | reset => exact (by simp : ∀ x ∈ ['R', 'E', 'S', 'E', 'T'], x ≠ ';' ∧ x ≠ '\n') c hc
  | command i =>
    cases i with
    | nop => exact (by simp : ∀ x ∈ ['N', 'O', 'P'], x ≠ ';' ∧ x ≠ '\n') c hc
    | next => exact (by simp : ∀ x ∈ ['N', 'E', 'X', 'T'], x ≠ ';' ∧ x ≠ '\n') c hc
    | load d =>
      obtain hc | hc := List.mem_append.1 (show c ∈ ['L', 'O', 'A', 'D', ' '] ++ renderBytes d from hc)
      · exact (by simp : ∀ x ∈ ['L', 'O', 'A', 'D', ' '], x ≠ ';' ∧ x ≠ '\n') c hc
      · exact not_separator_of_mem_renderBytes hc

/-- Every text has a first piece. -/
theorem splitText_eq_cons (sep : Char) (text : List Char) : ∃ piece more, splitText sep text = piece :: more := by
  cases text with
  | nil => exact ⟨_, _, rfl⟩
  | cons c text =>
    simp only [splitText]
    split
    · exact ⟨_, _, rfl⟩
    · split <;> exact ⟨_, _, rfl⟩

/-- A blank in front of a text stands in front of its first piece. -/
theorem splitText_blank (text : List Char) :
    ∃ piece more, splitText ',' text = piece :: more ∧ splitText ',' (' ' :: text) = (' ' :: piece) :: more := by
  obtain ⟨piece, more, h⟩ := splitText_eq_cons ',' text
  exact ⟨piece, more, h, by simp [splitText, h]⟩

/-- The operands do not see a blank in front of them. -/
theorem parseBytes_splitText_blank (text : List Char) :
    parseBytes (splitText ',' (' ' :: text)) = parseBytes (splitText ',' text) := by
  obtain ⟨piece, more, htext, hblank⟩ := splitText_blank text
  rw [htext, hblank, parseBytes, parseBytes, trimBlanks_blank (by rfl)]

/-- A printed operand in front of others reads back as its byte. -/
theorem parseBytes_renderByte_cons (b : Byte) (more : List (List Char)) :
    parseBytes (renderByte b :: more) = (parseBytes more).map (b :: ·) := by
  rw [parseBytes, (renderByte_endsUnblank b).trimBlanks_eq, parseByte_renderByte]
  cases parseBytes more <;> rfl

/-- Printed operands read back. -/
theorem parseBytes_renderBytes (b : Byte) (d : List Byte) :
    parseBytes (splitText ',' (renderBytes (b :: d))) = some (b :: d) := by
  have hcomma (b : Byte) : ∀ c ∈ renderByte b, c ≠ ',' := fun c hc => (not_separator_of_mem_renderByte hc).1
  induction d generalizing b with
  | nil =>
    rw [renderBytes, splitText_of_none ',' _ (hcomma b), parseBytes_renderByte_cons]
    rfl
  | cons c d ih =>
    rw [renderBytes_cons_cons, splitText_append ',' _ _ (hcomma b), parseBytes_renderByte_cons,
      parseBytes_splitText_blank, ih c]
    rfl

/-- A text without comment and without blanks at its ends is the line of its first word and what follows. -/
theorem parseLine_of_endsUnblank (L : Nat) {line : List Char} (hends : EndsUnblank line)
    (hcomment : ∀ c ∈ line, c ≠ ';') :
    parseLine L line = (parseCommand L (line.takeWhile fun c => !isBlank c)
      (trimBlanks (line.drop (line.takeWhile fun c => !isBlank c).length))).map ([·]) := by
  have htext : line.takeWhile (· != ';') = line := List.takeWhile_eq_self_iff.2 (by simpa using hcomment)
  have hne : line ≠ [] := by
    obtain ⟨x, y, m, rfl, -, -⟩ := hends
    simp
  simp only [parseLine, htext, hends.trimBlanks_eq, if_neg hne]

/-- The operands of a printed LOAD of L bytes read back as its operand. -/
theorem parseCommand_load (b : Byte) (d : List Byte) :
    parseCommand (b :: d).length ['L', 'O', 'A', 'D'] (renderBytes (b :: d)) = some (.command (.load (b :: d))) := by
  simp only [parseCommand, parseBytes_renderBytes, if_pos]

/-- A printed LOAD reads back. -/
theorem parseLine_renderStep_load (b : Byte) (d : List Byte) :
    parseLine (b :: d).length (renderStep (.command (.load (b :: d)))) = some [.command (.load (b :: d))] := by
  have hends : EndsUnblank (renderStep (.command (.load (b :: d)))) :=
    EndsUnblank.append ⟨'L', 'D', ['O', 'A'], rfl, rfl, rfl⟩ (renderBytes_endsUnblank b d) [' ']
  rw [parseLine_of_endsUnblank _ hends fun c hc => (not_separator_of_mem_renderStep hc).1]
  show (parseCommand _ ['L', 'O', 'A', 'D'] (trimBlanks (' ' :: renderBytes (b :: d)))).map _ = _
  rw [trimBlanks_blank (by rfl), (renderBytes_endsUnblank b d).trimBlanks_eq, parseCommand_load]
  rfl

/-- The line of every well-formed step reads back as that step. -/
theorem parseLine_renderStep {L : Nat} (hpos : 0 < L) {h : HostStep} (hwf : h.wellFormed L = true) :
    parseLine L (renderStep h) = some [h] := by
  match h with
  | .reset => rfl
  | .command .nop => rfl
  | .command .next => rfl
  | .command (.load d) =>
    have hlen : d.length = L := (wellFormed_load L d).1 hwf
    obtain ⟨b, d, rfl⟩ := List.exists_cons_of_length_pos (hlen ▸ hpos)
    rw [← hlen, parseLine_renderStep_load]

/-- The first line of a printed program is its first step, and the rest is the program of the others. -/
theorem splitText_renderProgram_cons (h : HostStep) (hs : List HostStep) :
    splitText '\n' (renderProgram (h :: hs)) = renderStep h :: splitText '\n' (renderProgram hs) := by
  have hline : renderProgram (h :: hs) = renderStep h ++ '\n' :: renderProgram hs := by simp [renderProgram]
  rw [hline, splitText_append _ _ _ fun c hc => (not_separator_of_mem_renderStep hc).2]

/-- Settles O40: line by line, the steps read back. -/
theorem parseOfRenderIsTheProgram : Obligations.ParseOfRenderIsTheProgram := by
  unfold Obligations.ParseOfRenderIsTheProgram
  rintro L hs ⟨hpos, -⟩ hwf
  induction hs with
  | nil => rfl
  | cons h hs ih =>
    obtain ⟨hfirst, hmore⟩ := List.forall_mem_cons.1 hwf
    have hlater : parseLines L (splitText '\n' (renderProgram hs)) = some hs := ih hmore
    rw [parseProgram, splitText_renderProgram_cons, parseLines, parseLine_renderStep hpos hfirst, hlater]
    rfl

/-- Settles O39: the printed LOAD reads back as itself, and the other text is read line by line. -/
theorem textExampleAssembles : Obligations.TextExampleAssembles := by
  unfold Obligations.TextExampleAssembles
  refine ⟨?_, rfl⟩
  rw [assembleText, parseOfRenderIsTheProgram 11 _ (by decide) (by decide)]
  rfl

end Sys2Proof.Machine
end
